-- ==== Sys2Proof/Word.lean ====
section
/-! DEFINITION. The plain value types of the machine (00_scope.md R7, R10; 10_state.md R17). -/

namespace Sys2Proof

/-- A 64-bit register value (XLEN of R7). -/
abbrev Word := BitVec 64

/-- One byte of instruction memory (R30). -/
abbrev Byte := BitVec 8

/-- A 32-bit instruction word as the number `insn` of R34; bit 0 here is the LEAST significant bit (R9). -/
abbrev InsnWord := BitVec 32

/-- The 128-bit intermediates of `maddedu`, `maddedus` and `divmod2du` (R36). -/
abbrev Quad := BitVec 128

/-- A GPR number, 0 to 31 (R17). A 5-bit field holds exactly these values, all legal (R52). -/
abbrev Reg := Fin 32

/-- The two 64-bit results every instruction has: the value its rule assigns to RT and the value it assigns to
RS (R19). They are the rule's values, not a later reading of a register (R21, R53). -/
structure Results where
  rt : Word
  rs : Word
deriving DecidableEq, Repr

end Sys2Proof
end

