-- ==== Sys2Proof/Config.lean ====
section
/-! DEFINITION. The parameters the spec leaves open (00_scope.md R7) and the one free value (10_state.md R21). -/

namespace Sys2Proof

/-- INSN_BYTE_ORDER (R34): the order of an instruction's four bytes in memory. Fixed for a run. -/
inductive ByteOrder where
  | big
  | little
deriving DecidableEq, Repr

/-- The five extended opcodes, OPEN in the spec (R50, D2): 6 bits in VA-Form, 5 bits in VA2-Form. -/
structure XoParams where
  maddedu   : BitVec 6
  maddedus  : BitVec 6
  divmod2du : BitVec 6
  dsld      : BitVec 5
  dsrd      : BitVec 5
deriving DecidableEq, Repr

/-- The seven 6-bit patterns R50 requires to be pairwise distinct (a VA2-Form XO counts twice, once per Rc). -/
def XoParams.patterns (x : XoParams) : List (BitVec 6) :=
  [x.maddedu, x.maddedus, x.divmod2du, x.dsld ++ 0#1, x.dsld ++ 1#1, x.dsrd ++ 0#1, x.dsrd ++ 1#1]

/-- The recommended defaults of R50. PRESUMED, unsafe: no source document states these numerals (log 1). -/
def XoParams.recommended : XoParams :=
  { maddedu := 50, maddedus := 57, divmod2du := 58, dsld := 26, dsrd := 27 }

/-- The open parameters of a machine (R7). State carries one, no step changes it, and statements hold for all. -/
structure Config where
  xo        : XoParams
  byteOrder : ByteOrder
deriving DecidableEq, Repr

/-- The configuration of State.reset and of the opcode table: the recommended numerals (PRESUMED, log 1) and
big-endian instruction bytes (DESIGN CHOICE, log 2: R34 gives no default). -/
def Config.atReset : Config :=
  { xo := XoParams.recommended, byteOrder := .big }

/-- THE FREE VALUE of the machine (R21, D10). `drawTakesRs n` says whether the n-th draw of a run, made when RT and
RC name one register, leaves the RS value (true) or the RT value (false). It has no body, so no proof can use which.
DESIGN CHOICE, safe (log 6). -/
opaque Config.drawTakesRs : Nat → Bool

end Sys2Proof
end

