-- ==== Sys2Proof/Syntax.lean ====
section
/-! DEFINITION. The instructions: one constructor per row of spec/opcode_table.json (30_encoding.md R60). -/

namespace Sys2Proof

/-- The five instructions. Operands stand in assembler order RT, RA, RB, RC (R57); RS is never written, it is the
register RC names (R20). `record` is the Rc bit of VA2-Form (R47, R58): `true` is `dsld.` or `dsrd.`. -/
inductive Instr where
  /-- Multiply-Add Extended Double Unsigned (R61). -/
  | maddedu (rt ra rb rc : Reg)
  /-- Multiply-Add Extended Double Unsigned/Signed (R64). -/
  | maddedus (rt ra rb rc : Reg)
  /-- Divide/Modulo Quad-Double Unsigned (R67). -/
  | divmod2du (rt ra rb rc : Reg)
  /-- Double-Shift Left Doubleword, and its record form (R72). -/
  | dsld (rt ra rb rc : Reg) (record : Bool)
  /-- Double-Shift Right Doubleword, and its record form (R75). -/
  | dsrd (rt ra rb rc : Reg) (record : Bool)
deriving DecidableEq, Repr

/-- The RT field: the explicit target (R19). -/
def Instr.rt : Instr → Reg
  | .maddedu rt _ _ _ => rt
  | .maddedus rt _ _ _ => rt
  | .divmod2du rt _ _ _ => rt
  | .dsld rt _ _ _ _ => rt
  | .dsrd rt _ _ _ _ => rt

/-- The RA field: the first source (R19). -/
def Instr.ra : Instr → Reg
  | .maddedu _ ra _ _ => ra
  | .maddedus _ ra _ _ => ra
  | .divmod2du _ ra _ _ => ra
  | .dsld _ ra _ _ _ => ra
  | .dsrd _ ra _ _ _ => ra

/-- The RB field: the second source; for the shifts, the count register (R19, R71). -/
def Instr.rb : Instr → Reg
  | .maddedu _ _ rb _ => rb
  | .maddedus _ _ rb _ => rb
  | .divmod2du _ _ rb _ => rb
  | .dsld _ _ rb _ _ => rb
  | .dsrd _ _ rb _ _ => rb

/-- The RC field: the third source AND the implicit second target RS (R20). -/
def Instr.rc : Instr → Reg
  | .maddedu _ _ _ rc => rc
  | .maddedus _ _ _ rc => rc
  | .divmod2du _ _ _ rc => rc
  | .dsld _ _ _ rc _ => rc
  | .dsrd _ _ _ rc _ => rc

/-- Whether the instruction writes CR0 (R26): only a VA2-Form word with Rc = 1 does. -/
def Instr.records : Instr → Bool
  | .maddedu _ _ _ _ => false
  | .maddedus _ _ _ _ => false
  | .divmod2du _ _ _ _ => false
  | .dsld _ _ _ _ record => record
  | .dsrd _ _ _ _ record => record

end Sys2Proof
end

