-- ==== Sys2Proof/WellFormed.lean ====
section
/-! DEFINITION. What the spec requires of the parameters. An instruction needs no check of its own: all 32 values of
every register field are legal in every field, in every combination, and Rc is one bit (R52), so each term of Instr
is well formed by its type. -/

namespace Sys2Proof

/-- R50: the seven 6-bit patterns are pairwise distinct, so that decode is a function. -/
def XoParams.wellFormed (x : XoParams) : Bool :=
  decide x.patterns.Nodup

/-- A configuration is well formed when its extended opcodes are; both byte orders are legal (R34). -/
def Config.wellFormed (c : Config) : Bool :=
  c.xo.wellFormed

/-- The launch premises of R38 on the program map: the base is a multiple of 4 and the end lies below 2^64. -/
def progMapPremise (base : Word) (len : Nat) : Bool :=
  decide (base.toNat % 4 = 0) && decide (base.toNat + 4 * len < 2 ^ 64)

/-- The maps a launch admits: those of R38, and also a text that ends exactly at 2^64, whose last instruction is then
refused by `pc_wrap` (R23; 95_test_vectors.md Part 6 allows a model to admit it). -/
def progMapAdmitted (base : Word) (len : Nat) : Bool :=
  decide (base.toNat % 4 = 0) && decide (base.toNat + 4 * len ≤ 2 ^ 64)

end Sys2Proof
end

