-- ==== Sys2Proof/Decode.lean ====
section
/-! DEFINITION. From bytes to instructions and back (20_memory.md R34; 30_encoding.md R45 to R52). -/

namespace Sys2Proof

/-- Why bytes are not an instruction. -/
inductive DecodeRefusal where
  /-- The word is none of the five instructions (R51, R54). Safe: the machine refuses it by name. -/
  | notLs003Instruction
  /-- Fewer than four bytes were given (R45: every instruction is 32 bits). Safe: a fetch never gives fewer. -/
  | truncated
deriving DecidableEq, Repr

/-! ### Fields of an instruction word (R46, R47), in LSB0 positions -/

/-- PO, MSB0 bits 0:5. -/
def fieldPO (w : InsnWord) : BitVec 6 := w.extractLsb' 26 6

/-- The GPR number in the five bits that begin at LSB0 bit `lo`. -/
def fieldReg (lo : Nat) (w : InsnWord) : Reg := (w.extractLsb' lo 5).toFin

/-- RT, MSB0 bits 6:10. -/
def fieldRT (w : InsnWord) : Reg := fieldReg 21 w

/-- RA, MSB0 bits 11:15. -/
def fieldRA (w : InsnWord) : Reg := fieldReg 16 w

/-- RB, MSB0 bits 16:20. -/
def fieldRB (w : InsnWord) : Reg := fieldReg 11 w

/-- RC, MSB0 bits 21:25 (the figure's stray marker 24 is an error: 90_conflicts.md C4). -/
def fieldRC (w : InsnWord) : Reg := fieldReg 6 w

/-- XO of VA-Form, MSB0 bits 26:31. -/
def fieldXO6 (w : InsnWord) : BitVec 6 := w.extractLsb' 0 6

/-- XO of VA2-Form, MSB0 bits 26:30. -/
def fieldXO5 (w : InsnWord) : BitVec 5 := w.extractLsb' 1 5

/-- Rc of VA2-Form, MSB0 bit 31. -/
def fieldRc (w : InsnWord) : Bool := w.getLsbD 0

/-- The primary opcode of all five (R49, D3: "EXT04"). -/
def primaryOpcode : BitVec 6 := 4

/-- R51: the decoder, for any extended opcodes `x`. -/
def decode (x : XoParams) (w : InsnWord) : Except DecodeRefusal Instr :=
  if fieldPO w ≠ primaryOpcode then .error .notLs003Instruction
  else if fieldXO6 w = x.maddedu then .ok (.maddedu (fieldRT w) (fieldRA w) (fieldRB w) (fieldRC w))
  else if fieldXO6 w = x.maddedus then .ok (.maddedus (fieldRT w) (fieldRA w) (fieldRB w) (fieldRC w))
  else if fieldXO6 w = x.divmod2du then .ok (.divmod2du (fieldRT w) (fieldRA w) (fieldRB w) (fieldRC w))
  else if fieldXO5 w = x.dsld then .ok (.dsld (fieldRT w) (fieldRA w) (fieldRB w) (fieldRC w) (fieldRc w))
  else if fieldXO5 w = x.dsrd then .ok (.dsrd (fieldRT w) (fieldRA w) (fieldRB w) (fieldRC w) (fieldRc w))
  else .error .notLs003Instruction

/-! ### Bytes (R34) -/

/-- The 32-bit number of four bytes in ascending address order. -/
def assembleWord (order : ByteOrder) (b0 b1 b2 b3 : Byte) : InsnWord :=
  match order with
  | .big => b0 ++ b1 ++ b2 ++ b3
  | .little => b3 ++ b2 ++ b1 ++ b0

/-- The four bytes of a word in ascending address order: what `assembleWord` reads back. -/
def wordBytes (order : ByteOrder) (w : InsnWord) : List Byte :=
  match order with
  | .big => [w.extractLsb' 24 8, w.extractLsb' 16 8, w.extractLsb' 8 8, w.extractLsb' 0 8]
  | .little => [w.extractLsb' 0 8, w.extractLsb' 8 8, w.extractLsb' 16 8, w.extractLsb' 24 8]

/-- The bytes of a program text (R38): its words one after the other. -/
def textBytes (order : ByteOrder) (words : List InsnWord) : List Byte :=
  words.flatMap (wordBytes order)

/-- Decoding, total on any bytes: one instruction and the bytes after it, or a refusal by name. -/
def decodeBytes (c : Config) (bytes : List Byte) : Except DecodeRefusal (Instr × List Byte) :=
  match bytes with
  | b0 :: b1 :: b2 :: b3 :: rest =>
    match decode c.xo (assembleWord c.byteOrder b0 b1 b2 b3) with
    | .ok i => .ok (i, rest)
    | .error e => .error e
  | _ => .error .truncated

/-! ### The encoder (R51: "The encoder is the inverse") -/

/-- A GPR number as a 5-bit field. -/
def regBits (r : Reg) : BitVec 5 := BitVec.ofFin r

/-- PO and the four register fields, then the six bits that hold XO (and Rc). -/
def encodeFields (rt ra rb rc : Reg) (low6 : BitVec 6) : InsnWord :=
  primaryOpcode ++ regBits rt ++ regBits ra ++ regBits rb ++ regBits rc ++ low6

/-- The word of an instruction: VA-Form (R46) for the first three, VA2-Form (R47) for the shifts. -/
def encode (x : XoParams) (i : Instr) : InsnWord :=
  match i with
  | .maddedu rt ra rb rc => encodeFields rt ra rb rc x.maddedu
  | .maddedus rt ra rb rc => encodeFields rt ra rb rc x.maddedus
  | .divmod2du rt ra rb rc => encodeFields rt ra rb rc x.divmod2du
  | .dsld rt ra rb rc record => encodeFields rt ra rb rc (x.dsld ++ BitVec.ofBool record)
  | .dsrd rt ra rb rc record => encodeFields rt ra rb rc (x.dsrd ++ BitVec.ofBool record)

/-- The instruction's bytes in memory. -/
def encodeBytes (c : Config) (i : Instr) : List Byte :=
  wordBytes c.byteOrder (encode c.xo i)

/-! ### The host's reading of the opcode table -/

/-- The word the host names by its low `nbits` bits: the bits above them are zero. -/
def tableWord (nbits w : Nat) : InsnWord := BitVec.ofNat 32 (w % 2 ^ nbits)

/-- The instruction the decoder reads from a row of spec/opcode_table.json, under the numerals the table shows
(Config.atReset, log 1). The word is laid out in bytes and read back, so the byte order (log 2) has no effect. -/
def decodeTableWord (nbits w : Nat) : Option Instr :=
  match decodeBytes Config.atReset (wordBytes Config.atReset.byteOrder (tableWord nbits w)) with
  | .ok (i, _) => some i
  | .error _ => none

end Sys2Proof
end

