-- ==== Sys2Proof/Machine/State.lean ====
section
/-! DEFINITION. The machine's state (10_state.md, 20_memory.md R38) and the reasons a step can stop
(60_exceptions.md R84, 70_reset_and_hazards.md R96). -/

namespace Sys2Proof.Machine

open Sys2Proof

/-- Instruction memory (R30): (address, byte) pairs, addresses strictly rising. An address that is not listed holds
no value (log 9), so no entry can equal what an unlisted address reads as. -/
abbrev Memory := List Host.Cell

/-- All the state the spec gives the machine, the launch parameters (program map and configuration) that the spec's
step takes as arguments, and `draws`, which is the model's own (log 6). -/
structure State where
  /-- `x[0]` .. `x[31]`; none is hardwired (R17, R18). -/
  gpr : Vector Word 32
  /-- The address of the instruction being executed (R22). -/
  pc : Word
  /-- The Condition Register: eight 4-bit fields, CR0 the most significant (R24). -/
  cr : BitVec 32
  /-- The Fixed-Point Exception Register, opaque (R27). -/
  xer : Word
  /-- Instruction memory (R30, R43). -/
  mem : Memory
  /-- `prog_base` (R38). -/
  progBase : Word
  /-- `prog_len`, in words (R38). -/
  progLen : Nat
  /-- The open parameters (R7): fixed for a run. -/
  config : Config
  /-- How many draws of R21 have been made. The model's own field: the index of the next free value. -/
  draws : Nat
deriving DecidableEq, Repr

/-- Why the machine stops although nothing is wrong. -/
inductive Fault where
  /-- Raised by fetch when `pc = prog_base + 4*prog_len` (R96): the run has ended, the state is final, the machine has
  no step. Safe: nothing is executed and nothing is fetched (log 7). -/
  | endOfRun
deriving DecidableEq, Repr

/-- The situations the spec gives no meaning to (R84). A refused run is never final and proves nothing; each is safe:
it can make a true claim unreachable, never a false one provable. -/
inductive Refusal where
  /-- Raised by `exec` for an instruction that has no meaning yet. Safe. No arm uses it. -/
  | notModelled (mnemonic : String)
  /-- `not_an_ls003_instruction`: raised by decode for a word that is none of the five (R51, R54). Safe. -/
  | notLs003Instruction
  /-- `fetch_outside_program`: raised by fetch when the pc is neither inside the text nor at its end (R33). Safe. -/
  | fetchOutsideProgram
  /-- `pc_misaligned`: raised by launch, and by fetch, for a pc that is not a multiple of 4 (R35, log 8). Safe. -/
  | pcMisaligned
  /-- `pc_wrap`: raised by execution when `pc + 4` would reach 2^64 (R23). Safe. -/
  | pcWrap
  /-- `out_of_scope_mode`: raised by launch for 32-bit mode or an SVP64 prefix (D4, D23). Safe. -/
  | outOfScopeMode
  /-- Raised by launch when the program map or the numerals break a premise of R38 or R50 (log 16). Safe. -/
  | launchPremise
deriving DecidableEq, Repr

/-- A reason not to take a step: what fetch and decode answer instead of an instruction. -/
inductive Stop where
  | fault (f : Fault)
  | refused (r : Refusal)
deriving DecidableEq, Repr

/-- The machine right after reset. The spec defines no reset and gives no register a value (R32, R94): every value here
is a DESIGN CHOICE (logs 2 to 6; PRESUMED for the XO numerals, log 1). It is one launch state, that of the empty
program; statements quantify over all states. -/
def State.reset : State :=
  { gpr := Vector.replicate 32 0
    pc := 0
    cr := 0
    xer := 0
    mem := []
    progBase := 0
    progLen := 0
    config := Config.atReset
    draws := 0 }

end Sys2Proof.Machine
end

