-- ==== Sys2Proof/Machine/Ops.lean ====
section
/-! DEFINITION. The shared operations: registers, instruction memory, fetch, and the completion of an instruction.
The spec has no exception, no trap entry and no trap return (60_exceptions.md R80, R83, R85), so there is none here:
where another machine would trap this one refuses by name (R84). -/

namespace Sys2Proof.Machine

open Sys2Proof

/-! ### General registers (R17, R18) -/

/-- `x[r]`. -/
def State.reg (s : State) (r : Reg) : Word := s.gpr[r.val]

/-- `x[r] <- v`. -/
def State.setReg (s : State) (r : Reg) (v : Word) : State :=
  { s with gpr := s.gpr.set r.val v }

/-- The register writes of one instruction (R21): RT and RS = RC together. When both fields name one register it is
left with a draw from the two values, and the draw counter advances. -/
def State.writeResults (s : State) (rt rc : Reg) (v : Results) : State :=
  if rt = rc then
    { s.setReg rc (if Config.drawTakesRs s.draws then v.rs else v.rt) with draws := s.draws + 1 }
  else (s.setReg rt v.rt).setReg rc v.rs

/-- `pc <- pc + 4` (R23). -/
def State.advancePc (s : State) : State := { s with pc := s.pc + 4 }

/-- How every instruction ends: its two results are written and the pc advances, or, where `pc + 4` would reach 2^64,
the step is refused and changes nothing (R21, R23, R82). -/
def complete (rt rc : Reg) (v : Results) (s : State) : Host.Outcome State Fault Refusal :=
  if s.pc.toNat + 4 < 2 ^ 64 then .next (s.writeResults rt rc v).advancePc else .refused .pcWrap

/-! ### Instruction memory (R30, R33, R38) -/

/-- The byte at an address; an unlisted address holds none (log 9). -/
def Memory.read : Memory → Nat → Option Byte
  | [], _ => none
  | (k, v) :: m, a => if a = k then some v else Memory.read m a

/-- Puts one byte at an address and keeps the addresses rising. -/
def Memory.insert : Memory → Nat → Byte → Memory
  | [], a, v => [(a, v)]
  | (k, w) :: m, a, v =>
    if a < k then (a, v) :: (k, w) :: m
    else if a = k then (k, v) :: m
    else (k, w) :: Memory.insert m a v

/-- Writes one byte. No step writes memory (R43); this is how a program is put there. There is no byte at or above
address 2^64, so a write there changes nothing (log 18). -/
def Memory.write (m : Memory) (a : Nat) (v : Byte) : Memory :=
  if a < 2 ^ 64 then Memory.insert m a v else m

/-- Writes bytes at consecutive addresses from `a` on. -/
def Memory.load (m : Memory) (a : Nat) : List Byte → Memory
  | [] => m
  | b :: bs => Memory.load (Memory.write m a b) (a + 1) bs

/-- `MemRead(a, n)` (R16): the `n` bytes from `a` on, if every one of them is there. -/
def Memory.readBytes (m : Memory) (a : Nat) : Nat → Option (List Byte)
  | 0 => some []
  | n + 1 =>
    match Memory.read m a, Memory.readBytes m (a + 1) n with
    | some b, some bs => some (b :: bs)
    | _, _ => none

/-- The canonical form: addresses strictly rising and inside the 64-bit address space. -/
abbrev Memory.wf (m : Memory) : Prop :=
  m.Pairwise (fun p q => p.1 < q.1) ∧ ∀ p ∈ m, p.1 < 2 ^ 64

/-! ### The program and its fetch (R33, R35, R96) -/

/-- The address just past the last word: `prog_base + 4*prog_len`, an integer that may be 2^64 (R38). -/
def State.textEnd (s : State) : Nat := s.progBase.toNat + 4 * s.progLen

/-- Whether the four bytes at the pc lie inside the program text (R33). -/
def State.inText (s : State) : Bool :=
  decide (s.progBase.toNat ≤ s.pc.toNat) && decide (s.pc.toNat + 4 ≤ s.textEnd)

/-- Makes `words` at `base` the program of the machine (R38): its bytes and its map. The environment's act before a
run (R101), never part of a step. -/
def State.loadProgram (s : State) (base : Word) (words : List InsnWord) : State :=
  { s with
    mem := s.mem.load base.toNat (textBytes s.config.byteOrder words)
    progBase := base
    progLen := words.length }

/-- The four bytes at the pc, or why there are none, in the order the launch checks and R33 give: alignment (R35), end of
the run (R96), outside the text (R33). -/
def fetchBytes (s : State) : Except Stop (List Byte) :=
  if s.pc.toNat % 4 ≠ 0 then .error (.refused .pcMisaligned)
  else if s.pc.toNat = s.textEnd then .error (.fault .endOfRun)
  else if s.inText then
    match s.mem.readBytes s.pc.toNat 4 with
    | some bytes => .ok bytes
    | none => .error (.refused .fetchOutsideProgram)
  else .error (.refused .fetchOutsideProgram)

/-- Fetch, then decode (R82). -/
def fetchInstr (s : State) : Except Stop Instr :=
  match fetchBytes s with
  | .error stop => .error stop
  | .ok bytes =>
    match decodeBytes s.config bytes with
    | .ok (i, _) => .ok i
    | .error .notLs003Instruction => .error (.refused .notLs003Instruction)
    | .error .truncated => .error (.refused .fetchOutsideProgram)

end Sys2Proof.Machine
end

