-- ==== Sys2Proof/Machine/DivideModulo.lean ====
section
/-! DEFINITION. `divmod2du` (41_divide_modulo.md). -/

namespace Sys2Proof.Machine

open Sys2Proof

/-- R67: the 128-bit dividend `a || c` over `b`, quotient to RT and remainder to RS where `a <u b`; otherwise (division
by zero and quotient overflow included) all ones and zero. Total: there is no undefined case (U1). -/
def divmod2duResults (a b c : Word) : Results :=
  if a.toNat < b.toNat then
    let n := a.toNat * 2 ^ 64 + c.toNat
    { rt := BitVec.ofNat 64 (n / b.toNat), rs := BitVec.ofNat 64 (n % b.toNat) }
  else { rt := BitVec.allOnes 64, rs := 0 }

/-- `divmod2du RT,RA,RB,RC` (R67): all reads first, no special register altered, not even in the error case. -/
def execDivmod2du (rt ra rb rc : Reg) (s : State) : Host.Outcome State Fault Refusal :=
  complete rt rc (divmod2duResults (s.reg ra) (s.reg rb) (s.reg rc)) s

end Sys2Proof.Machine
end

