-- ==== Sys2Proof/Machine/Flags.lean ====
section
/-! DEFINITION. The Condition Register and the flag computation of the record forms (10_state.md R24, R25, R26). -/

namespace Sys2Proof.Machine

open Sys2Proof

/-- CR0 as the record forms set it from the rule's RT and RS values (R25): LT, GT, EQ by the signed comparison of RT
with zero, then OVF, set exactly when RS is nonzero. It is not a copy of XER.SO. The order is the spec's decision
D19 (PRESUMED, log 11). -/
def cr0Of (v : Results) : BitVec 4 :=
  BitVec.ofBool (decide (v.rt.toInt < 0)) ++ BitVec.ofBool (decide (0 < v.rt.toInt))
    ++ BitVec.ofBool (decide (v.rt = 0)) ++ BitVec.ofBool (decide (v.rs ≠ 0))

/-- Field `k` of CR, CR0 the most significant (R24). -/
def State.crField (s : State) (k : Fin 8) : BitVec 4 := s.cr.extractLsb' (28 - 4 * k.val) 4

/-- CR0 is replaced, CR1 .. CR7 are kept (R24). -/
def State.setCr0 (s : State) (v : BitVec 4) : State :=
  { s with cr := v ++ s.cr.extractLsb' 0 28 }

/-- With Rc = 1 CR0 is set from the results, with Rc = 0 CR is untouched (R26). XER is never touched (R27). -/
def State.recordCr0 (s : State) (record : Bool) (v : Results) : State :=
  if record then s.setCr0 (cr0Of v) else s

end Sys2Proof.Machine
end

