-- ==== Sys2Proof/Machine/Operands.lean ====
section
/-! DEFINITION. The pseudocode primitives the operands go through (00_scope.md R10, R12 to R14; 42_double_shift.md R71). -/

namespace Sys2Proof.Machine

open Sys2Proof

/-- `bv_128(n)` (R10): the 128-bit vector congruent to an integer, negative included. -/
def bv128 (n : Int) : Quad := BitVec.ofInt 128 n

/-- The low-order half of a 128-bit value, source `sum[64:127]` (R9). -/
def lowHalf (q : Quad) : Word := q.extractLsb' 0 64

/-- The high-order half of a 128-bit value, source `sum[0:63]` (R9). -/
def highHalf (q : Quad) : Word := q.extractLsb' 64 64

/-- `ROTL64(v, k)` for `0 <= k <= 64` (R13): rotate left by `k mod 64`. DEDUCED (log 13). -/
def rotl64 (v : Word) (k : Nat) : Word :=
  (v <<< (k % 64)) ||| (v >>> (64 - k % 64))

/-- `MASK(a, b)` for `0 <= a <= b <= 63` (R14): ones in MSB0 positions `a` through `b`. DEDUCED (log 13). -/
def mask64 (a b : Nat) : Word :=
  (BitVec.allOnes 64 >>> a) &&& (BitVec.allOnes 64 <<< (63 - b))

/-- The shift count of `dsld` and `dsrd` (R71): the low-order six bits of `x[RB]`, the other 58 ignored. -/
def shiftCount (b : Word) : Nat := (b.extractLsb' 0 6).toNat

end Sys2Proof.Machine
end

