-- ==== Sys2Proof/Machine/DoubleShift.lean ====
section
/-! DEFINITION. `dsld`, `dsrd` and their record forms (42_double_shift.md). -/

namespace Sys2Proof.Machine

open Sys2Proof

/-- R72, as the source's rotate and mask; the mask is `MASK(0, 63-n)` (90_conflicts.md C7). -/
def dsldResults (a b c : Word) : Results :=
  let n := shiftCount b
  let v := rotl64 a n
  let mask := mask64 0 (63 - n)
  { rt := (v &&& mask) ||| (c &&& ~~~mask), rs := v &&& ~~~mask }

/-- R75, as the source's rotate and mask; `ROTL64(a, 64)` is `a` (R13). -/
def dsrdResults (a b c : Word) : Results :=
  let n := shiftCount b
  let v := rotl64 a (64 - n)
  let mask := mask64 n 63
  { rt := (v &&& mask) ||| (c &&& ~~~mask), rs := v &&& ~~~mask }

/-- `dsld RT,RA,RB,RC`, and `dsld.` where `record` (R72, R78): CR0 comes from the rule's results, not from the
registers (R21). -/
def execDsld (rt ra rb rc : Reg) (record : Bool) (s : State) : Host.Outcome State Fault Refusal :=
  let v := dsldResults (s.reg ra) (s.reg rb) (s.reg rc)
  complete rt rc v (s.recordCr0 record v)

/-- `dsrd RT,RA,RB,RC`, and `dsrd.` where `record` (R75, R78). -/
def execDsrd (rt ra rb rc : Reg) (record : Bool) (s : State) : Host.Outcome State Fault Refusal :=
  let v := dsrdResults (s.reg ra) (s.reg rb) (s.reg rc)
  complete rt rc v (s.recordCr0 record v)

end Sys2Proof.Machine
end

