-- ==== Sys2Proof/Machine/MultiplyAdd.lean ====
section
/-! DEFINITION. `maddedu` and `maddedus` (40_multiply_add.md). -/

namespace Sys2Proof.Machine

open Sys2Proof

/-- R61: the 128-bit sum of the unsigned product and the zero-extended `c`; low half to RT, high half to RS. -/
def maddeduResults (a b c : Word) : Results :=
  let sum := bv128 (a.toNat * b.toNat + c.toNat)
  { rt := lowHalf sum, rs := highHalf sum }

/-- R64: the 128-bit sum of unsigned `a` times signed `b` and signed `c`; low half to RT, high half to RS. -/
def maddedusResults (a b c : Word) : Results :=
  let sum := bv128 (a.toNat * b.toInt + c.toInt)
  { rt := lowHalf sum, rs := highHalf sum }

/-- `maddedu RT,RA,RB,RC` (R61): all reads first, no special register altered. -/
def execMaddedu (rt ra rb rc : Reg) (s : State) : Host.Outcome State Fault Refusal :=
  complete rt rc (maddeduResults (s.reg ra) (s.reg rb) (s.reg rc)) s

/-- `maddedus RT,RA,RB,RC` (R64): all reads first, no special register altered. -/
def execMaddedus (rt ra rb rc : Reg) (s : State) : Host.Outcome State Fault Refusal :=
  complete rt rc (maddedusResults (s.reg ra) (s.reg rb) (s.reg rc)) s

end Sys2Proof.Machine
end

