-- ==== Sys2Proof/Machine/Dispatch.lean ====
section
/-! DEFINITION. One arm per instruction, each one call of its meaning. -/

namespace Sys2Proof.Machine

open Sys2Proof

def exec (i : Instr) (s : State) : Host.Outcome State Fault Refusal :=
  match i with
  | .maddedu rt ra rb rc => Sys2Proof.Machine.execMaddedu rt ra rb rc s
  | .maddedus rt ra rb rc => Sys2Proof.Machine.execMaddedus rt ra rb rc s
  | .divmod2du rt ra rb rc => Sys2Proof.Machine.execDivmod2du rt ra rb rc s
  | .dsld rt ra rb rc record => Sys2Proof.Machine.execDsld rt ra rb rc record s
  | .dsrd rt ra rb rc record => Sys2Proof.Machine.execDsrd rt ra rb rc record s

end Sys2Proof.Machine
end

