-- ==== Sys2Proof/Machine/Step.lean ====
section
/-! DEFINITION. One step: fetch, decode, execute (60_exceptions.md R82). -/

namespace Sys2Proof.Machine

open Sys2Proof

/-- One step of the one agent (R90). Fetch and decode may stop it; execution moves the pc itself. -/
def step (s : State) : Host.Outcome State Fault Refusal :=
  match fetchInstr s with
  | .ok i => exec i s
  | .error (.fault f) => .fault f
  | .error (.refused r) => .refused r

/-- The state with a program of exactly one word, the host's, loaded at the pc: where `step` fetches next. Registers,
CR, XER, pc and configuration are unchanged. It stands for the environment's load of a program (R101, log 5). -/
def State.withFetchWord (s : State) (nbits w : Nat) : State :=
  s.loadProgram s.pc [tableWord nbits w]

end Sys2Proof.Machine
end

