-- ==== Sys2Proof/Machine/Assembly.lean ====
section
/-! DEFINITION. Assembler syntax (30_encoding.md R57, R58, R59). Text is a list of characters. -/

namespace Sys2Proof.Machine

open Sys2Proof

/-- A decimal digit below 10. -/
def digitChar (n : Nat) : Char :=
  (['0', '1', '2', '3', '4', '5', '6', '7', '8', '9'] : List Char).getD n '0'

/-- The value of a decimal digit. -/
def digitValue (c : Char) : Option Nat :=
  (['0', '1', '2', '3', '4', '5', '6', '7', '8', '9'] : List Char).idxOf? c

/-- A register operand: `r` followed by its decimal number (R57). -/
def regText (r : Reg) : List Char :=
  if r.val < 10 then ['r', digitChar r.val] else ['r', digitChar (r.val / 10), digitChar (r.val % 10)]

/-- The mnemonic in lower case (R57), with the full stop of the record forms (R58, D21). -/
def mnemonicText (i : Instr) : List Char :=
  match i with
  | .maddedu _ _ _ _ => ['m', 'a', 'd', 'd', 'e', 'd', 'u']
  | .maddedus _ _ _ _ => ['m', 'a', 'd', 'd', 'e', 'd', 'u', 's']
  | .divmod2du _ _ _ _ => ['d', 'i', 'v', 'm', 'o', 'd', '2', 'd', 'u']
  | .dsld _ _ _ _ false => ['d', 's', 'l', 'd']
  | .dsld _ _ _ _ true => ['d', 's', 'l', 'd', '.']
  | .dsrd _ _ _ _ false => ['d', 's', 'r', 'd']
  | .dsrd _ _ _ _ true => ['d', 's', 'r', 'd', '.']

/-- The source line of an instruction: mnemonic, blank, then RT, RA, RB, RC between commas (R57). RS is not written. -/
def assemblyText (i : Instr) : List Char :=
  mnemonicText i ++ ' ' :: regText i.rt ++ ',' :: regText i.ra ++ ',' :: regText i.rb ++ ',' :: regText i.rc

/-- A blank of a source line. -/
def isBlank (c : Char) : Bool := c == ' ' || c == '\t'

/-- What stands before a comment: `#` begins one and it runs to the end of the line (R57). -/
def uncommented (line : List Char) : List Char := line.takeWhile (· != '#')

/-- The text less the blanks at its end. -/
def trimEnd (text : List Char) : List Char := (text.reverse.dropWhile isBlank).reverse

/-- The parts of a text between commas. -/
def splitCommas : List Char → List (List Char)
  | [] => [[]]
  | c :: cs =>
    if c = ',' then [] :: splitCommas cs
    else match splitCommas cs with
      | [] => [[c]]
      | part :: parts => (c :: part) :: parts

/-- A register operand read back. A bare number and a number with a leading zero are not accepted (log 20). -/
def parseReg (text : List Char) : Option Reg :=
  match text with
  | ['r', d] => (digitValue d).map (Fin.ofNat 32)
  | ['r', d, e] =>
    match digitValue d, digitValue e with
    | some m, some n => if 0 < m ∧ 10 * m + n < 32 then some (Fin.ofNat 32 (10 * m + n)) else none
    | _, _ => none
  | _ => none

/-- The instruction a mnemonic names, with its operands. There is no extended mnemonic (R59) and no `maddedu.` (R58). -/
def instrNamed (mnemonic : List Char) (rt ra rb rc : Reg) : Option Instr :=
  [Instr.maddedu rt ra rb rc, .maddedus rt ra rb rc, .divmod2du rt ra rb rc, .dsld rt ra rb rc false,
    .dsld rt ra rb rc true, .dsrd rt ra rb rc false, .dsrd rt ra rb rc true].find? (mnemonicText · == mnemonic)

/-- One source line read as an instruction (R57): optional blanks stand after a comma, and around the line. -/
def parseAssembly (line : List Char) : Option Instr :=
  let text := (trimEnd (uncommented line)).dropWhile isBlank
  let operands := text.dropWhile (!isBlank ·)
  match (splitCommas operands).map (fun part => parseReg (part.dropWhile isBlank)) with
  | [some rt, some ra, some rb, some rc] => instrNamed (text.takeWhile (!isBlank ·)) rt ra rb rc
  | _ => none

end Sys2Proof.Machine
end

