-- ==== Sys2Proof/Machine/Launch.lean ====
section
/-! DEFINITION. How a run begins: the launch state and program the environment supplies
(10_state.md R32; 20_memory.md R35, R38; 60_exceptions.md R84; 70_reset_and_hazards.md R94, R101). -/

namespace Sys2Proof.Machine

open Sys2Proof

/-- The computation mode a launch asks for (R7, D4). -/
inductive ComputationMode where
  | bits64
  | bits32
deriving DecidableEq, Repr

/-- Everything the environment supplies (R32, R38, R7). -/
structure LaunchRequest where
  gpr : Vector Word 32
  pc : Word
  cr : BitVec 32
  xer : Word
  /-- `prog_base` (R38). -/
  progBase : Word
  /-- The program's `prog_len` instruction words (R38). -/
  program : List InsnWord
  config : Config
  mode : ComputationMode
  /-- Whether any instruction carries a vector (SVP64) prefix (D23). -/
  svp64Prefix : Bool
deriving DecidableEq, Repr

/-- The launch state: every piece of state as supplied, the program in memory, no draw made yet. -/
def LaunchRequest.state (q : LaunchRequest) : State :=
  State.loadProgram
    { gpr := q.gpr, pc := q.pc, cr := q.cr, xer := q.xer, mem := [], progBase := q.progBase, progLen := 0,
      config := q.config, draws := 0 }
    q.progBase q.program

/-- A launch: refused for a mode or prefix outside the scope, for a misaligned pc (R84), or for a program map or numerals
that break the premises of R38 and R50 (log 16); otherwise the launch state. A pc outside the text is refused by the
first fetch (R33), not here. The spec asks for a pc equal to `prog_base` (R32, R94) and names no outcome for another
aligned pc inside the text: DESIGN CHOICE (log 23), such a launch is admitted and the run starts at that word. -/
def launch (q : LaunchRequest) : Host.Outcome State Fault Refusal :=
  if q.mode = .bits32 ∨ q.svp64Prefix = true then .refused .outOfScopeMode
  else if q.pc.toNat % 4 ≠ 0 then .refused .pcMisaligned
  else if progMapAdmitted q.progBase q.program.length && q.config.wellFormed then .next q.state
  else .refused .launchPremise

end Sys2Proof.Machine
end

