-- ==== Sys2Proof/Safety.lean ====
section
/-! DEFINITION. What counts as a safe run, and the terms the statements use. -/

namespace Sys2Proof.Machine

open Sys2Proof

/-- The run has ended and the state is final (R96). -/
abbrev State.final (s : State) : Prop := s.pc.toNat = s.textEnd

/-- The launch premises (R32, R35, R38, R50), as they persist through a run: the pc is aligned and lies in the program
or at its end, the map is legal, instruction memory is in canonical form and holds every byte of the text, and the
extended opcodes are distinct. -/
abbrev State.Inv (s : State) : Prop :=
  s.pc.toNat % 4 = 0 ∧ progMapPremise s.progBase s.progLen = true ∧
  s.progBase.toNat ≤ s.pc.toNat ∧ s.pc.toNat ≤ s.textEnd ∧
  s.mem.wf ∧ (∀ k < 4 * s.progLen, (s.mem.read (s.progBase.toNat + k)).isSome = true) ∧
  s.config.wellFormed = true

/-- The two results the rule of an instruction gives for three operand values (R61, R64, R67, R72, R75). -/
def resultsOf (i : Instr) (a b c : Word) : Results :=
  match i with
  | .maddedu _ _ _ _ => maddeduResults a b c
  | .maddedus _ _ _ _ => maddedusResults a b c
  | .divmod2du _ _ _ _ => divmod2duResults a b c
  | .dsld _ _ _ _ _ => dsldResults a b c
  | .dsrd _ _ _ _ _ => dsrdResults a b c

/-- What every instruction leaves unchanged between `s` and `t` (R19, R27, R43): every register but `rt` and `rc`, XER,
instruction memory, the program map and the configuration. -/
structure Frame (rt rc : Reg) (s t : State) : Prop where
  regs : ∀ r, r ≠ rt → r ≠ rc → t.reg r = s.reg r
  xer : t.xer = s.xer
  mem : ∀ a, t.mem.read a = s.mem.read a
  progBase : t.progBase = s.progBase
  progLen : t.progLen = s.progLen
  config : t.config = s.config

/-- The instructions one after the other, each by its own meaning (R40, R98); the first that does not complete ends it. -/
def execAll : List Instr → State → Host.Outcome State Fault Refusal
  | [], s => .next s
  | i :: is, s =>
    match exec i s with
    | .next t => execAll is t
    | .fault f => .fault f
    | .refused r => .refused r

/-- The state with its registers under other numbers: `p r` holds what `r` held (R18). -/
def State.renamed (p : Equiv.Perm Reg) (s : State) : State :=
  { s with gpr := Vector.ofFn (fun r => s.reg (p.symm r)) }

/-- The instruction that names the same registers under their other numbers (R18). -/
def renamedInstr (p : Equiv.Perm Reg) : Instr → Instr
  | .maddedu rt ra rb rc => .maddedu (p rt) (p ra) (p rb) (p rc)
  | .maddedus rt ra rb rc => .maddedus (p rt) (p ra) (p rb) (p rc)
  | .divmod2du rt ra rb rc => .divmod2du (p rt) (p ra) (p rb) (p rc)
  | .dsld rt ra rb rc record => .dsld (p rt) (p ra) (p rb) (p rc) record
  | .dsrd rt ra rb rc record => .dsrd (p rt) (p ra) (p rb) (p rc) record

/-! ### Big integers in registers (R63, R66, R69, R74, R77) -/

/-- The number of a list of limbs, least significant first. -/
def limbsValue : List Word → Nat
  | [] => 0
  | v :: vs => v.toNat + 2 ^ 64 * limbsValue vs

/-- The number of a list of limbs, most significant first, below a part already read. -/
def limbsBelow (acc : Nat) : List Word → Nat
  | [] => acc
  | v :: vs => limbsBelow (acc * 2 ^ 64 + v.toNat) vs

/-- A chain through one carry register: the same instruction with the same RB and RC, once per (RT, RA) pair (R63). -/
def chainOf (mk : Reg → Reg → Reg → Reg → Instr) (rb rc : Reg) (links : List (Reg × Reg)) : List Instr :=
  links.map (fun l => mk l.1 l.2 rb rc)

/-- What a chain needs of its register numbers (R63, R74): the carry register differs from every RT, and no instruction
overwrites the multiplier or count RB, a source limb still to be read, or an earlier result. -/
def chainOk (rb rc : Reg) : List (Reg × Reg) → Bool
  | [] => true
  | l :: rest =>
    decide (l.1 ≠ rc)
      && rest.all (fun m => decide (l.1 ≠ m.1 ∧ l.1 ≠ m.2 ∧ rc ≠ m.2 ∧ l.1 ≠ rb ∧ rc ≠ rb))
      && chainOk rb rc rest

/-- The limbs a right-shift chain leaves (R77), most significant first: each limb's high part, below the bits that
come in from the limb above (`carry`, already in place at the top). -/
def rightShiftedLimbs (n carry : Nat) : List Word → List Nat
  | [] => []
  | v :: vs => (v.toNat / 2 ^ n + carry) :: rightShiftedLimbs n (v.toNat % 2 ^ n * 2 ^ (64 - n)) vs

/-- A long division by one limb (R69, program P5): from the most significant limb down, the remainder that lands in
one step's RC register is the next step's RA. The pairs are (RT, RC). -/
def divChainOf (ra rb : Reg) : List (Reg × Reg) → List Instr
  | [] => []
  | l :: rest => .divmod2du l.1 ra rb l.2 :: divChainOf l.2 rb rest

/-- The register that holds the remainder after the chain. -/
def divChainRem (ra : Reg) : List (Reg × Reg) → Reg
  | [] => ra
  | l :: rest => divChainRem l.2 rest

/-- What a division chain needs of its register numbers: RT and RC of a step differ, and no step overwrites the divisor
or a limb still to be read, or an earlier quotient limb. -/
def divChainOk (rb : Reg) : List (Reg × Reg) → Bool
  | [] => true
  | l :: rest =>
    decide (l.1 ≠ l.2)
      && rest.all (fun m => decide (l.1 ≠ m.1 ∧ l.1 ≠ m.2 ∧ l.2 ≠ m.2 ∧ l.1 ≠ rb ∧ l.2 ≠ rb))
      && divChainOk rb rest

end Sys2Proof.Machine
end

