-- ==== Sys2Proof/Certificates/Slice0/Obligations.lean ====
section
/-! DEFINITION. The statements for the provers. Each docstring names the rule it formalises; a state in a statement is
any state, reached or not, unless the statement assumes State.Inv. -/

open Sys2Proof Sys2Proof.Machine

/-! ### Encoding and decoding -/

/-- R51 with the recommended numerals (PRESUMED, log 1) and primary opcode 4 (the spec's decision D3, log 12): words
written out from the spec's encodings, one per mnemonic and both Rc values, extreme register fields, and words that are
none of the five. -/
def Obligations.SpecWordsDecodeAsWritten : Prop :=
  decode XoParams.recommended 0b000100_00100_00000_00001_00010_110010 = .ok (.maddedu 4 0 1 2) ∧
  decode XoParams.recommended 0b000100_00100_00000_00001_00010_111001 = .ok (.maddedus 4 0 1 2) ∧
  decode XoParams.recommended 0b000100_00101_00010_00001_00100_111010 = .ok (.divmod2du 5 2 1 4) ∧
  decode XoParams.recommended 0b000100_00100_00000_00001_00010_11010_0 = .ok (.dsld 4 0 1 2 false) ∧
  decode XoParams.recommended 0b000100_00100_00000_00001_00010_11010_1 = .ok (.dsld 4 0 1 2 true) ∧
  decode XoParams.recommended 0b000100_00100_00000_00001_00010_11011_0 = .ok (.dsrd 4 0 1 2 false) ∧
  decode XoParams.recommended 0b000100_11111_11111_11111_11111_11011_1 = .ok (.dsrd 31 31 31 31 true) ∧
  decode XoParams.recommended 0b000100_00100_00000_00001_00010_110011 = .error .notLs003Instruction ∧
  decode XoParams.recommended 0b011111_00100_00000_00001_00010_110010 = .error .notLs003Instruction

/-- R51, "The encoder is the inverse": for every legal choice of the five extended opcodes, decoding the word of any
instruction gives that instruction back, whatever its operands. -/
def Obligations.DecodeOfEncodeIsIdentity : Prop :=
  ∀ (x : XoParams) (i : Instr), x.wellFormed = true → decode x (encode x i) = .ok i

/-- R46, R47: all 32 bits are assigned, so a word that decodes is the word of the instruction it decodes to. It holds
for every choice of numerals, a clashing one included. -/
def Obligations.EncodeOfDecodeIsIdentity : Prop :=
  ∀ (x : XoParams) (w : InsnWord) (i : Instr), decode x w = .ok i → encode x i = w

/-- R51: the number of an instruction's word, by the spec's own formula for the two forms. That PO is 4 is the spec's
decision D3 (log 12). -/
def Obligations.EncodedWordIsFieldSum : Prop :=
  ∀ (x : XoParams) (i : Instr),
    (encode x i).toNat = 4 * 2 ^ 26 + i.rt.val * 2 ^ 21 + i.ra.val * 2 ^ 16 + i.rb.val * 2 ^ 11 + i.rc.val * 2 ^ 6 +
      (match i with
        | .maddedu _ _ _ _ => x.maddedu.toNat
        | .maddedus _ _ _ _ => x.maddedus.toNat
        | .divmod2du _ _ _ _ => x.divmod2du.toNat
        | .dsld _ _ _ _ record => x.dsld.toNat * 2 + record.toNat
        | .dsrd _ _ _ _ record => x.dsrd.toNat * 2 + record.toNat)

/-- R46, R47: every field of the two forms stands at the spec's MSB0 positions: PO 0:5, RT 6:10, RA 11:15, RB 16:20, RC
21:25, then XO 26:31 in VA-Form, XO 26:30 and Rc 31 in VA2-Form. That PO is 4 is the spec's decision D3 (log 12). -/
def Obligations.FieldsStandAtMsb0Positions : Prop :=
  ∀ (x : XoParams) (i : Instr),
    (∀ j, j < 6 → (encode x i).getMsbD j = (4#6).getMsbD j) ∧
    (∀ j, j < 5 →
      (encode x i).getMsbD (6 + j) = (BitVec.ofNat 5 i.rt.val).getMsbD j ∧
      (encode x i).getMsbD (11 + j) = (BitVec.ofNat 5 i.ra.val).getMsbD j ∧
      (encode x i).getMsbD (16 + j) = (BitVec.ofNat 5 i.rb.val).getMsbD j ∧
      (encode x i).getMsbD (21 + j) = (BitVec.ofNat 5 i.rc.val).getMsbD j) ∧
    (match i with
      | .maddedu _ _ _ _ => ∀ j, j < 6 → (encode x i).getMsbD (26 + j) = x.maddedu.getMsbD j
      | .maddedus _ _ _ _ => ∀ j, j < 6 → (encode x i).getMsbD (26 + j) = x.maddedus.getMsbD j
      | .divmod2du _ _ _ _ => ∀ j, j < 6 → (encode x i).getMsbD (26 + j) = x.divmod2du.getMsbD j
      | .dsld _ _ _ _ record =>
        (∀ j, j < 5 → (encode x i).getMsbD (26 + j) = x.dsld.getMsbD j) ∧ (encode x i).getMsbD 31 = record
      | .dsrd _ _ _ _ record =>
        (∀ j, j < 5 → (encode x i).getMsbD (26 + j) = x.dsrd.getMsbD j) ∧ (encode x i).getMsbD 31 = record)

/-- R51 and opcode_table.json: with the recommended numerals (PRESUMED, log 1) and primary opcode 4 (the spec's decision
D3, log 12), a word decodes to a mnemonic exactly when it meets that mnemonic's match and mask pair. -/
def Obligations.MatchAndMaskDecideMnemonic : Prop :=
  ∀ w : InsnWord,
    (w &&& 0xFC00003F = 0x10000032 ↔
      decode XoParams.recommended w = .ok (.maddedu (fieldRT w) (fieldRA w) (fieldRB w) (fieldRC w))) ∧
    (w &&& 0xFC00003F = 0x10000039 ↔
      decode XoParams.recommended w = .ok (.maddedus (fieldRT w) (fieldRA w) (fieldRB w) (fieldRC w))) ∧
    (w &&& 0xFC00003F = 0x1000003A ↔
      decode XoParams.recommended w = .ok (.divmod2du (fieldRT w) (fieldRA w) (fieldRB w) (fieldRC w))) ∧
    (w &&& 0xFC00003E = 0x10000034 ↔
      decode XoParams.recommended w = .ok (.dsld (fieldRT w) (fieldRA w) (fieldRB w) (fieldRC w) (w.getLsbD 0))) ∧
    (w &&& 0xFC00003E = 0x10000036 ↔
      decode XoParams.recommended w = .ok (.dsrd (fieldRT w) (fieldRA w) (fieldRB w) (fieldRC w) (w.getLsbD 0)))

/-- R50 and R51: with legal numerals exactly seven of the 64 six-bit points under primary opcode 4 are instructions; a
word decodes exactly when its primary opcode is 4 and its low six bits are one of them. That PO is 4 is the spec's
decision D3 (log 12). -/
def Obligations.DecodableWordsAreTheSevenPatterns : Prop :=
  ∀ x : XoParams, x.wellFormed = true →
    x.patterns.toFinset.card = 7 ∧
    ∀ w : InsnWord, (∃ i, decode x w = .ok i) ↔ (w.toNat / 2 ^ 26 = 4 ∧ w.extractLsb' 0 6 ∈ x.patterns)

/-- R34: the 32-bit number of four bytes in ascending address order, in both byte orders. -/
def Obligations.WordOfBytesByOrder : Prop :=
  ∀ b0 b1 b2 b3 : Byte,
    (assembleWord .big b0 b1 b2 b3).toNat =
      b0.toNat * 2 ^ 24 + b1.toNat * 2 ^ 16 + b2.toNat * 2 ^ 8 + b3.toNat ∧
    (assembleWord .little b0 b1 b2 b3).toNat =
      b3.toNat * 2 ^ 24 + b2.toNat * 2 ^ 16 + b1.toNat * 2 ^ 8 + b0.toNat

/-- R51, R34, R45: the four bytes of an instruction, in either byte order, decode to it, and the bytes after them are
left over. -/
def Obligations.DecodeBytesOfEncodeBytes : Prop :=
  ∀ (c : Config) (i : Instr) (rest : List Byte), c.wellFormed = true →
    decodeBytes c (encodeBytes c i ++ rest) = .ok (i, rest)

/-- R57, R58: the source line of every instruction reads back as that instruction, with any blanks after the commas and
at the end of the line, and with or without a comment behind it. The full stop of the record forms is the spec's
decision D21; what other spellings are accepted is the model's choice (log 20). -/
def Obligations.AssemblyTextReadsBack : Prop :=
  ∀ (i : Instr) (b₁ b₂ b₃ b₄ comment : List Char), (∀ c ∈ b₁ ++ b₂ ++ b₃ ++ b₄, isBlank c = true) →
    parseAssembly (assemblyText i) = some i ∧
    parseAssembly (mnemonicText i ++ ' ' :: regText i.rt ++ ',' :: b₁ ++ regText i.ra ++ ',' :: b₂ ++ regText i.rb
      ++ ',' :: b₃ ++ regText i.rc ++ b₄ ++ '#' :: comment) = some i

/-! ### Fetch, step and launch -/

/-- R33, R82: where the pc is aligned and inside the text and the four bytes at it decode to an instruction, a step is
the execution of that instruction at that state; execution itself moves the pc. -/
def Obligations.StepRunsDecodedInstruction : Prop :=
  ∀ (s : State) (b0 b1 b2 b3 : Byte) (i : Instr),
    s.pc.toNat % 4 = 0 → s.progBase.toNat ≤ s.pc.toNat → s.pc.toNat + 4 ≤ s.progBase.toNat + 4 * s.progLen →
    s.mem.read s.pc.toNat = some b0 → s.mem.read (s.pc.toNat + 1) = some b1 →
    s.mem.read (s.pc.toNat + 2) = some b2 → s.mem.read (s.pc.toNat + 3) = some b3 →
    decode s.config.xo (assembleWord s.config.byteOrder b0 b1 b2 b3) = .ok i →
    step s = exec i s

/-- R33, R35, R84, R96: where no instruction is fetched. A misaligned pc is refused; an aligned pc exactly at the end of
the text ends the run, whatever memory holds there; an aligned pc elsewhere outside the text is refused. That
misalignment is looked for at every step, not only at launch, and that the end of the run is a fault, are the model's
choices (logs 7, 8). -/
def Obligations.FetchStopsOutsideTheText : Prop :=
  ∀ s : State,
    (s.pc.toNat % 4 ≠ 0 → step s = .refused .pcMisaligned) ∧
    (s.pc.toNat % 4 = 0 → s.pc.toNat = s.progBase.toNat + 4 * s.progLen → step s = .fault .endOfRun) ∧
    (s.pc.toNat % 4 = 0 → s.pc.toNat ≠ s.progBase.toNat + 4 * s.progLen →
      (s.pc.toNat < s.progBase.toNat ∨ s.progBase.toNat + 4 * s.progLen < s.pc.toNat + 4) →
      step s = .refused .fetchOutsideProgram)

/-- R54: a word in the text that is the word of no instruction is refused by name; it is never a no-operation and never
a trap. -/
def Obligations.ForeignWordIsRefused : Prop :=
  ∀ (s : State) (b0 b1 b2 b3 : Byte),
    s.pc.toNat % 4 = 0 → s.progBase.toNat ≤ s.pc.toNat → s.pc.toNat + 4 ≤ s.progBase.toNat + 4 * s.progLen →
    s.mem.read s.pc.toNat = some b0 → s.mem.read (s.pc.toNat + 1) = some b1 →
    s.mem.read (s.pc.toNat + 2) = some b2 → s.mem.read (s.pc.toNat + 3) = some b3 →
    (∀ i, encode s.config.xo i ≠ assembleWord s.config.byteOrder b0 b1 b2 b3) →
    step s = .refused .notLs003Instruction

/-- R84, R35, D4, D23: which launches are refused, and by which name. The model's choices (log 16): the last clause;
and, where a request has several causes at once, which name it gets (mode and prefix before alignment, alignment before
the map and the numerals), since the spec gives no order of the launch checks. -/
def Obligations.LaunchRefusals : Prop :=
  ∀ q : LaunchRequest,
    ((q.mode = .bits32 ∨ q.svp64Prefix = true) → launch q = .refused .outOfScopeMode) ∧
    (q.mode = .bits64 → q.svp64Prefix = false → q.pc.toNat % 4 ≠ 0 → launch q = .refused .pcMisaligned) ∧
    (q.mode = .bits64 → q.svp64Prefix = false → q.pc.toNat % 4 = 0 →
      (q.progBase.toNat % 4 ≠ 0 ∨ 2 ^ 64 < q.progBase.toNat + 4 * q.program.length ∨ ¬ q.config.xo.patterns.Nodup) →
      launch q = .refused .launchPremise)

/-- R32, R38, R94: a launch that meets the premises answers the launch state, with every value as supplied; its k-th
fetch address holds the k-th word of the program in the configured byte order, and it meets State.Inv if the pc is
`prog_base`. -/
def Obligations.LaunchPlacesProgram : Prop :=
  ∀ q : LaunchRequest,
    q.mode = .bits64 → q.svp64Prefix = false → q.pc = q.progBase → q.config.xo.patterns.Nodup →
    q.progBase.toNat % 4 = 0 → q.progBase.toNat + 4 * q.program.length < 2 ^ 64 →
    ∃ s, launch q = .next s ∧ s.gpr = q.gpr ∧ s.pc = q.pc ∧ s.cr = q.cr ∧ s.xer = q.xer ∧
      s.progBase = q.progBase ∧ s.progLen = q.program.length ∧ s.config = q.config ∧ s.Inv ∧
      ∀ (k : Nat) (hk : k < q.program.length),
        s.mem.readBytes (q.progBase.toNat + 4 * k) 4 = some (wordBytes q.config.byteOrder q.program[k])

/-- State.Inv holds of the state right after reset, whose values are the model's choices (logs 1 to 6). -/
def Obligations.ResetMeetsInvariant : Prop :=
  State.reset.Inv

/-- Every step keeps State.Inv: the pc stays aligned (R23, R35) and inside the program or at its end, the program map
stays legal (R38), instruction memory stays canonical and holds the whole text (R43), the numerals stay distinct (R50).
-/
def Obligations.StepKeepsInvariant : Prop :=
  ∀ s t : State, s.Inv → step s = .next t → t.Inv

/-- R84, R96: from a state that meets State.Inv a step can only complete, end the run, or meet a word that is none of
the five; it ends the run exactly at the end of the text, and the pc never wraps, is misaligned or leaves the program.
That the end of the run is the fault endOfRun is the model's choice (log 7). -/
def Obligations.OnlyForeignWordsAreRefused : Prop :=
  ∀ s : State, s.Inv →
    ((∃ t, step s = .next t) ∨ step s = .fault .endOfRun ∨ step s = .refused .notLs003Instruction) ∧
    (step s = .fault .endOfRun ↔ s.pc.toNat = s.progBase.toNat + 4 * s.progLen)

/-- R96: "since none of the five can branch, every program of `prog_len` decodable words ends after exactly `prog_len`
steps". From any point of it, a program whose remaining words all decode reaches its final state after exactly as many
steps as words remain, not earlier, and has no step from there. That the end of the run is a fault is the model's choice
(log 7); that each step moves the pc by 4 is the spec's decision D5 (log 10). -/
def Obligations.StraightLineRunEnds : Prop :=
  ∀ (s : State) (n : Nat), s.Inv → s.pc.toNat + 4 * n = s.progBase.toNat + 4 * s.progLen →
    (∀ k < n, ∃ i, fetchInstr { s with pc := s.pc + BitVec.ofNat 64 (4 * k) } = .ok i) →
    (∃ t, Sys2Proof.core.run n s = .next t ∧ t.final ∧ step t = .fault .endOfRun) ∧
    ∀ m < n, ∃ u, Sys2Proof.core.run m s = .next u ∧ ¬ u.final

/-! ### Every instruction -/

/-- R23: every instruction, on completion, sets `pc <- pc + 4`, and one whose `pc + 4` would reach 2^64 is refused; an
aligned pc stays aligned. Sequential execution and the refusal are the spec's decision D5 (log 10). -/
def Obligations.PcAdvancesByFourOrIsRefused : Prop :=
  ∀ (i : Instr) (s : State),
    (s.pc.toNat + 4 < 2 ^ 64 → ∃ t, exec i s = .next t ∧ t.pc.toNat = s.pc.toNat + 4 ∧
      (s.pc.toNat % 4 = 0 → t.pc.toNat % 4 = 0)) ∧
    (2 ^ 64 ≤ s.pc.toNat + 4 → exec i s = .refused .pcWrap)

/-- R79, R82: no instruction raises anything, for any operand values and register numbers: it completes whenever the pc
can advance, and the one refusal of execution is the wrap check (the spec's decision D5, log 10). -/
def Obligations.ExecutionNeverFaults : Prop :=
  ∀ (i : Instr) (s : State),
    (∀ f, exec i s ≠ .fault f) ∧
    (∀ r, exec i s = .refused r → r = .pcWrap ∧ 2 ^ 64 ≤ s.pc.toNat + 4) ∧
    (s.pc.toNat + 4 < 2 ^ 64 → ∃ t, exec i s = .next t)

/-- R93 (3) and (4), R24, R27, R43 for the whole machine: a step changes at most the RT and RC registers of the
instruction it fetched, the pc by 4, and CR0; CR1 to CR7, XER, memory, the program map and the configuration never
change. The layout of CR is the spec's decision D20 (log 11), the advance of the pc its decision D5 (R23, log 10). -/
def Obligations.StepChangesOnlyTwoRegistersAndCr0 : Prop :=
  ∀ s t : State, step s = .next t →
    (∃ i, fetchInstr s = .ok i ∧ Frame i.rt i.rc s t) ∧ t.pc.toNat = s.pc.toNat + 4 ∧
    (∀ k : Fin 8, k ≠ 0 → t.crField k = s.crField k)

/-- R19: what each instruction reads and writes. Two states that agree on the three source registers (for the shifts, on
the low six bits of RB only), whatever else they hold (pc, CR, XER, memory, the old RT), get the same RT and RS, and the
same CR0 with Rc = 1; no other register is written, and no part of CR without Rc = 1, nor CR1 to CR7 with it. Where RT
and RC are one register the states must also agree on the draw (the spec's decision D10, log 6). Where CR0 to CR7 stand
in CR is the spec's decision D20 (log 11). -/
def Obligations.EveryInstructionReadsAndWritesItsList : Prop :=
  ∀ (i : Instr) (s₁ s₂ t₁ t₂ : State),
    s₁.reg i.ra = s₂.reg i.ra →
    (match i with
      | .maddedu _ _ _ _ => s₁.reg i.rb = s₂.reg i.rb
      | .maddedus _ _ _ _ => s₁.reg i.rb = s₂.reg i.rb
      | .divmod2du _ _ _ _ => s₁.reg i.rb = s₂.reg i.rb
      | .dsld _ _ _ _ _ => (s₁.reg i.rb).toNat % 64 = (s₂.reg i.rb).toNat % 64
      | .dsrd _ _ _ _ _ => (s₁.reg i.rb).toNat % 64 = (s₂.reg i.rb).toNat % 64) →
    s₁.reg i.rc = s₂.reg i.rc →
    (i.rt = i.rc → s₁.draws = s₂.draws) →
    exec i s₁ = .next t₁ → exec i s₂ = .next t₂ →
    t₁.reg i.rt = t₂.reg i.rt ∧ t₁.reg i.rc = t₂.reg i.rc ∧
    (i.records = true → t₁.crField 0 = t₂.crField 0) ∧
    (∀ r, r ≠ i.rt → r ≠ i.rc → t₁.reg r = s₁.reg r) ∧
    (i.records = false → t₁.cr = s₁.cr) ∧
    (∀ k : Fin 8, k ≠ 0 → t₁.crField k = s₁.crField k)

/-- R26: CR0 is written by `dsld` and `dsrd` when, and only when, Rc is 1; the three VA-Form instructions write no part
of CR; no instruction reads CR, so another CR before changes nothing after but CR1 to CR7, and, without Rc = 1, CR0.
Where CR0 stands in CR is the spec's decision D20 (log 11). With RT = RC the two runs are compared under one index of
the draw, which is the model's (log 6), not the hardware's. -/
def Obligations.OnlyRecordFormsTouchCr : Prop :=
  ∀ (i : Instr) (s t : State) (cr : BitVec 32), exec i s = .next t →
    ((i.records = false ∧ t.cr = s.cr ∧ exec i { s with cr := cr } = .next { t with cr := cr }) ∨
     (i.records = true ∧ (∃ rt ra rb rc, i = .dsld rt ra rb rc true ∨ i = .dsrd rt ra rb rc true) ∧
      exec i { s with cr := cr } = .next { t with cr := t.crField 0 ++ cr.extractLsb' 0 28 }))

/-- R27: no instruction reads or writes any bit of XER: with another XER before, the same happens and that XER is there
after. CR0's fourth bit is therefore not copied from XER.SO. With RT = RC the two runs are compared under one index of
the draw, which is the model's (log 6), not the hardware's. -/
def Obligations.XerIsNeverReadOrWritten : Prop :=
  ∀ (i : Instr) (s t : State) (xer : Word), exec i s = .next t →
    t.xer = s.xer ∧ exec i { s with xer := xer } = .next { t with xer := xer }

/-- The model's draw counter (log 6): it advances exactly when an instruction has RT = RC. -/
def Obligations.DrawCounterAdvancesOnlyOnDraws : Prop :=
  ∀ (i : Instr) (s t : State), exec i s = .next t → t.draws = if i.rt = i.rc then s.draws + 1 else s.draws

/-- R71, for the result functions of the two shifts: their count is the low-order six bits of b, and the other 58 bits
are ignored: whatever 64-bit value of the same low six bits stands there, both give the same results and the same CR0; b
modulo 64 is the count, so 64 shifts by nothing. What the instructions do with x[RB] is ShiftsMoveByLowSixBitsOfRb. -/
def Obligations.ShiftCountIsLowSixBits : Prop :=
  ∀ a b c : Word,
    shiftCount b = b.toNat % 64 ∧
    (∀ b' : Word, b'.toNat % 64 = b.toNat % 64 →
      dsldResults a b' c = dsldResults a b c ∧ dsrdResults a b' c = dsrdResults a b c ∧
      cr0Of (dsldResults a b' c) = cr0Of (dsldResults a b c) ∧ cr0Of (dsrdResults a b' c) = cr0Of (dsrdResults a b c)) ∧
    (b.toNat % 64 = 0 → dsldResults a b c = { rt := a, rs := 0 } ∧ dsrdResults a b c = { rt := a, rs := 0 })

/-- R17: the 32 registers are separate 64-bit cells. For every register, r0 included, a value written is read back, and
no other register changes. -/
def Obligations.EveryRegisterIsOrdinary : Prop :=
  ∀ (s : State) (r q : Reg) (v : Word),
    (s.setReg r v).reg r = v ∧ (q ≠ r → (s.setReg r v).reg q = s.reg q)

/-- R18: no register is hardwired or special to an instruction, r0 included, in any of the four fields. Under any
renumbering of the 32 registers, the renumbered instruction does to the renumbered state exactly what the instruction
did, stops included. With RT = RC the two runs are compared under one index of the draw, which is the model's (log 6),
not the hardware's. -/
def Obligations.NoRegisterIsSpecial : Prop :=
  ∀ (p : Equiv.Perm Reg) (i : Instr) (s : State),
    exec (renamedInstr p i) (s.renamed p) =
      match exec i s with
      | .next t => .next (t.renamed p)
      | .fault f => .fault f
      | .refused r => .refused r

/-- R25 and 95_test_vectors.md 3.6: the value of CR0 by the four flags, exactly one of LT, GT, EQ, and the six reachable
values. The order of the four bits is the spec's decision D19 (log 11). -/
def Obligations.Cr0ValueByFlags : Prop :=
  ∀ v : Results,
    (cr0Of v).toNat = (if v.rt.toInt < 0 then 8 else 0) + (if 0 < v.rt.toInt then 4 else 0) +
      (if v.rt.toNat = 0 then 2 else 0) + (if v.rs.toNat ≠ 0 then 1 else 0) ∧
    cr0Of v ∈ ([0b1000, 0b1001, 0b0100, 0b0101, 0b0010, 0b0011] : List (BitVec 4))

/-! ### The five instructions: result, completion and frame -/

/-- R61: `maddedu` completes and leaves in RS:RT the exact 128-bit number u(a)*u(b) + u(c); with RT = RC the register
holds one of its two halves, which one is free (the spec's decision D10, log 6). CR, XER and everything else are
unchanged. That the word's PO is 4 is the spec's decision D3 (log 12), the advance of the pc its decision D5 (log 10).
-/
def Obligations.MaddeduResult : Prop :=
  ∀ (rt ra rb rc : Reg) (s : State), s.pc.toNat + 4 < 2 ^ 64 →
    ∃ t hi lo, exec (.maddedu rt ra rb rc) s = .next t ∧
      hi < 2 ^ 64 ∧ lo < 2 ^ 64 ∧
      hi * 2 ^ 64 + lo = (s.reg ra).toNat * (s.reg rb).toNat + (s.reg rc).toNat ∧
      (rt ≠ rc → (t.reg rt).toNat = lo ∧ (t.reg rc).toNat = hi) ∧
      (rt = rc → (t.reg rc).toNat = lo ∨ (t.reg rc).toNat = hi) ∧
      t.pc = s.pc + 4 ∧ t.cr = s.cr ∧ Frame rt rc s t ∧
      ∀ x : XoParams, fieldPO (encode x (.maddedu rt ra rb rc)) = 4 ∧ fieldXO6 (encode x (.maddedu rt ra rb rc)) = x.maddedu

/-- R64: `maddedus` completes and leaves in RS:RT the exact signed 128-bit number u(a)*s(b) + s(c); with RT = RC the
register holds one of its two halves (the spec's decision D10, log 6). CR, XER and everything else are unchanged. That
the word's PO is 4 is the spec's decision D3 (log 12), the advance of the pc its decision D5 (log 10). -/
def Obligations.MaddedusResult : Prop :=
  ∀ (rt ra rb rc : Reg) (s : State), s.pc.toNat + 4 < 2 ^ 64 →
    ∃ t, ∃ hi lo : Word, exec (.maddedus rt ra rb rc) s = .next t ∧
      hi.toInt * 2 ^ 64 + lo.toNat = (s.reg ra).toNat * (s.reg rb).toInt + (s.reg rc).toInt ∧
      (rt ≠ rc → t.reg rt = lo ∧ t.reg rc = hi) ∧
      (rt = rc → t.reg rc = lo ∨ t.reg rc = hi) ∧
      t.pc = s.pc + 4 ∧ t.cr = s.cr ∧ Frame rt rc s t ∧
      ∀ x : XoParams, fieldPO (encode x (.maddedus rt ra rb rc)) = 4 ∧ fieldXO6 (encode x (.maddedus rt ra rb rc)) = x.maddedus

/-- R67: `divmod2du` completes. Where u(a) < u(b) the two results are the quotient and the remainder of the 128-bit
dividend; otherwise all ones and zero. With RT = RC the register holds one of the two (the spec's decision D10, log 6).
CR, XER and everything else are unchanged, in the error case too. That the word's PO is 4 is the spec's decision D3 (log
12), the advance of the pc its decision D5 (log 10). -/
def Obligations.Divmod2duResult : Prop :=
  ∀ (rt ra rb rc : Reg) (s : State), s.pc.toNat + 4 < 2 ^ 64 →
    ∃ t q r, exec (.divmod2du rt ra rb rc) s = .next t ∧
      ((s.reg ra).toNat < (s.reg rb).toNat →
        q * (s.reg rb).toNat + r = (s.reg ra).toNat * 2 ^ 64 + (s.reg rc).toNat ∧ r < (s.reg rb).toNat) ∧
      ((s.reg rb).toNat ≤ (s.reg ra).toNat → q = 2 ^ 64 - 1 ∧ r = 0) ∧
      (rt ≠ rc → (t.reg rt).toNat = q ∧ (t.reg rc).toNat = r) ∧
      (rt = rc → (t.reg rc).toNat = q ∨ (t.reg rc).toNat = r) ∧
      t.pc = s.pc + 4 ∧ t.cr = s.cr ∧ Frame rt rc s t ∧
      ∀ x : XoParams, fieldPO (encode x (.divmod2du rt ra rb rc)) = 4 ∧ fieldXO6 (encode x (.divmod2du rt ra rb rc)) = x.divmod2du

/-- R72: `dsld` and `dsld.` complete, with the results of the spec's integer form; n is the low six bits of RB. With RT
= RC the register holds one of the two (the spec's decision D10, log 6). With Rc = 0 CR is unchanged; with Rc = 1 CR0 is
set from the results, not from the registers (R25; the order of its bits is the spec's decision D19, log 11), and CR1 to
CR7 are unchanged. XER and everything else are unchanged. That the word's PO is 4 is the spec's decision D3 (log 12),
the advance of the pc its decision D5 (log 10). -/
def Obligations.DsldResult : Prop :=
  ∀ (rt ra rb rc : Reg) (record : Bool) (s : State), s.pc.toNat + 4 < 2 ^ 64 →
    ∃ t, ∃ vt vs : Word, exec (.dsld rt ra rb rc record) s = .next t ∧
      (∀ n, n = (s.reg rb).toNat % 64 →
        vt.toNat = (s.reg ra).toNat * 2 ^ n % 2 ^ 64 + (s.reg rc).toNat % 2 ^ n ∧
        vs.toNat = (s.reg ra).toNat / 2 ^ (64 - n)) ∧
      (rt ≠ rc → t.reg rt = vt ∧ t.reg rc = vs) ∧
      (rt = rc → t.reg rc = vt ∨ t.reg rc = vs) ∧
      (record = false → t.cr = s.cr) ∧
      (record = true → (t.crField 0).toNat = (if vt.toInt < 0 then 8 else 0) + (if 0 < vt.toInt then 4 else 0) +
          (if vt = 0 then 2 else 0) + (if vs ≠ 0 then 1 else 0) ∧
        ∀ k : Fin 8, k ≠ 0 → t.crField k = s.crField k) ∧
      t.pc = s.pc + 4 ∧ Frame rt rc s t ∧
      ∀ x : XoParams, fieldPO (encode x (.dsld rt ra rb rc record)) = 4 ∧
        fieldXO5 (encode x (.dsld rt ra rb rc record)) = x.dsld ∧ fieldRc (encode x (.dsld rt ra rb rc record)) = record

/-- R75: `dsrd` and `dsrd.` complete, with the results of the spec's integer form; n is the low six bits of RB. With RT
= RC the register holds one of the two (the spec's decision D10, log 6). With Rc = 0 CR is unchanged; with Rc = 1 CR0 is
set from the results, not from the registers (R25; the order of its bits is the spec's decision D19, log 11), and CR1 to
CR7 are unchanged. XER and everything else are unchanged. That the word's PO is 4 is the spec's decision D3 (log 12),
the advance of the pc its decision D5 (log 10). -/
def Obligations.DsrdResult : Prop :=
  ∀ (rt ra rb rc : Reg) (record : Bool) (s : State), s.pc.toNat + 4 < 2 ^ 64 →
    ∃ t, ∃ vt vs : Word, exec (.dsrd rt ra rb rc record) s = .next t ∧
      (∀ n, n = (s.reg rb).toNat % 64 →
        vt.toNat = (s.reg ra).toNat / 2 ^ n + ((s.reg rc).toNat - (s.reg rc).toNat % 2 ^ (64 - n)) ∧
        vs.toNat = (s.reg ra).toNat * 2 ^ (64 - n) % 2 ^ 64) ∧
      (rt ≠ rc → t.reg rt = vt ∧ t.reg rc = vs) ∧
      (rt = rc → t.reg rc = vt ∨ t.reg rc = vs) ∧
      (record = false → t.cr = s.cr) ∧
      (record = true → (t.crField 0).toNat = (if vt.toInt < 0 then 8 else 0) + (if 0 < vt.toInt then 4 else 0) +
          (if vt = 0 then 2 else 0) + (if vs ≠ 0 then 1 else 0) ∧
        ∀ k : Fin 8, k ≠ 0 → t.crField k = s.crField k) ∧
      t.pc = s.pc + 4 ∧ Frame rt rc s t ∧
      ∀ x : XoParams, fieldPO (encode x (.dsrd rt ra rb rc record)) = 4 ∧
        fieldXO5 (encode x (.dsrd rt ra rb rc record)) = x.dsrd ∧ fieldRc (encode x (.dsrd rt ra rb rc record)) = record

/-- R78: with Rc = 1 the overflow bit of CR0 (its least significant) is 1 exactly when a one bit of x[RA] was shifted
out: for `dsld.` one of its top n bits, for `dsrd.` one of its low n bits. It is not sticky, not a copy of XER.SO, and 0
for a count of 0; XER is unchanged. It holds with RT = RC too. Its place in CR is the spec's decision D19 (log 11). -/
def Obligations.OverflowBitIsLostOneBit : Prop :=
  ∀ (rt ra rb rc : Reg) (s t : State),
    (exec (.dsld rt ra rb rc true) s = .next t →
      (t.cr.getLsbD 28 = true ↔
        ∃ j, 64 - (s.reg rb).toNat % 64 ≤ j ∧ j < 64 ∧ (s.reg ra).getLsbD j = true) ∧
      ((s.reg rb).toNat % 64 = 0 → t.cr.getLsbD 28 = false) ∧ t.xer = s.xer) ∧
    (exec (.dsrd rt ra rb rc true) s = .next t →
      (t.cr.getLsbD 28 = true ↔ ∃ j, j < (s.reg rb).toNat % 64 ∧ (s.reg ra).getLsbD j = true) ∧
      ((s.reg rb).toNat % 64 = 0 → t.cr.getLsbD 28 = false) ∧ t.xer = s.xer)

/-! ### Arithmetic laws -/

/-- R62: the sum of `maddedu` never overflows 128 bits, the pair (RS, RT) is exact, and the RT value is the same whether
the operands are read as unsigned or as signed. -/
def Obligations.MaddeduIsExactAndLowHalfSignless : Prop :=
  ∀ a b c : Word,
    a.toNat * b.toNat + c.toNat ≤ 2 ^ 128 - 2 ^ 64 ∧
    (maddeduResults a b c).rs.toNat * 2 ^ 64 + (maddeduResults a b c).rt.toNat = a.toNat * b.toNat + c.toNat ∧
    ((maddeduResults a b c).rt.toNat : Int) = (a.toInt * b.toInt + c.toInt) % 2 ^ 64

/-- R65: the sum of `maddedus` lies in the signed 128-bit range and is exact; its low half is that of `maddedu`; its
high half is that of `maddedu` less u(a) if b is negative and less 1 if c is negative. -/
def Obligations.MaddedusAgainstMaddedu : Prop :=
  ∀ a b c : Word,
    -2 ^ 127 ≤ a.toNat * b.toInt + c.toInt ∧ a.toNat * b.toInt + c.toInt ≤ 2 ^ 127 - 2 ^ 64 ∧
    (maddedusResults a b c).rs.toInt * 2 ^ 64 + (maddedusResults a b c).rt.toNat = a.toNat * b.toInt + c.toInt ∧
    (maddedusResults a b c).rt = (maddeduResults a b c).rt ∧
    ((maddedusResults a b c).rs.toNat : Int) =
      ((maddeduResults a b c).rs.toNat - a.toNat * (b.getLsbD 63).toNat - (c.getLsbD 63).toNat) % 2 ^ 64

/-- R64 and 90_conflicts.md C12: the source's branching pseudocode, in 128-bit arithmetic, gives the model's results: a
negative b is multiplied by its magnitude and the product negated. -/
def Obligations.MaddedusFollowsSourcePseudocode : Prop :=
  ∀ a b c : Word,
    let prod : Quad :=
      if b.getLsbD 63 then -(a.setWidth 128 * -(b.signExtend 128)) else a.setWidth 128 * b.setWidth 128
    let sum : Quad := prod + c.signExtend 128
    (maddedusResults a b c).rt = sum.extractLsb' 0 64 ∧ (maddedusResults a b c).rs = sum.extractLsb' 64 64

/-- R67: the source's pseudocode, with its 128-bit dividend and its second test on the divisor, gives the model's
results. -/
def Obligations.Divmod2duFollowsSourcePseudocode : Prop :=
  ∀ a b c : Word,
    divmod2duResults a b c =
      if a < b ∧ b ≠ 0 then
        { rt := ((a ++ c : Quad) / ((0 : Word) ++ b : Quad)).extractLsb' 0 64
          rs := ((a ++ c : Quad) % ((0 : Word) ++ b : Quad)).extractLsb' 0 64 }
      else { rt := ~~~(0 : Word), rs := 0 }

/-- R69, first half: dividing what `maddedu` made by its multiplier gives the multiplicand and the addend back, where
the addend is below the multiplier. Run as two instructions on one machine. -/
def Obligations.DivmodUndoesMaddedu : Prop :=
  ∀ (rt ra rb rc rq : Reg) (s t u : State),
    rt ≠ rc → rt ≠ rb → rc ≠ rb → rq ≠ rt →
    (s.reg rc).toNat < (s.reg rb).toNat →
    exec (.maddedu rt ra rb rc) s = .next t → exec (.divmod2du rq rc rb rt) t = .next u →
    u.reg rq = s.reg ra ∧ u.reg rt = s.reg rc

/-- R69, second half: multiplying the quotient that `divmod2du` made by the divisor and adding the remainder gives the
dividend back, its high half in RS and its low half in RT, where there was no error. -/
def Obligations.MaddeduUndoesDivmod : Prop :=
  ∀ (rt ra rb rc rl : Reg) (s t u : State),
    rt ≠ rc → rt ≠ rb → rc ≠ rb → rl ≠ rc →
    (s.reg ra).toNat < (s.reg rb).toNat →
    exec (.divmod2du rt ra rb rc) s = .next t → exec (.maddedu rl rt rb rc) t = .next u →
    u.reg rc = s.reg ra ∧ u.reg rl = s.reg rc

/-- R70: the pair (all ones, zero) is not an error signal: it arises in the error case and also in one legal division
for every divisor but 0, and in no other. -/
def Obligations.DivmodErrorPairIsAmbiguous : Prop :=
  ∀ a b c : Word,
    divmod2duResults a b c = { rt := BitVec.allOnes 64, rs := 0 } ↔
      (b.toNat ≤ a.toNat ∨ (a.toNat + 1 = b.toNat ∧ c.toNat + b.toNat = 2 ^ 64))

/-- R13 (the spec's inference D24, log 13): ROTL64 by its arithmetic, and the two counts that leave the value unchanged.
-/
def Obligations.RotateLeftLaw : Prop :=
  ∀ (v : Word) (k : Nat), k ≤ 64 →
    (k % 64 ≠ 0 → (rotl64 v k).toNat = v.toNat * 2 ^ (k % 64) % 2 ^ 64 + v.toNat / 2 ^ (64 - k % 64)) ∧
    (k % 64 = 0 → rotl64 v k = v)

/-- R14 (the spec's inference D24, log 13): MASK by its bits and by its number. -/
def Obligations.MaskLaw : Prop :=
  ∀ a b : Nat, a ≤ b → b ≤ 63 →
    (∀ j, j < 64 → ((mask64 a b).getLsbD j = true ↔ 63 - b ≤ j ∧ j ≤ 63 - a)) ∧
    (mask64 a b).toNat = 2 ^ (64 - a) - 2 ^ (63 - b)

/-- R73: the two results of `dsld` partition the 128-bit value shifted left; RT takes only the low n bits of c, RS
nothing of it. -/
def Obligations.DsldPartitionsShiftedValue : Prop :=
  ∀ a b c : Word, ∀ n, n = b.toNat % 64 →
    (dsldResults a b c).rs.toNat * 2 ^ 64 + (dsldResults a b c).rt.toNat = a.toNat * 2 ^ n + c.toNat % 2 ^ n ∧
    (dsldResults a b c).rs.toNat < 2 ^ n ∧
    (∀ c' : Word, c'.toNat % 2 ^ n = c.toNat % 2 ^ n → (dsldResults a b c').rt = (dsldResults a b c).rt) ∧
    (∀ c' : Word, (dsldResults a b c').rs = (dsldResults a b c).rs)

/-- R76: the two results of `dsrd` partition the value shifted right, RS is a multiple of 2^(64-n), RT takes only the
top n bits of c and RS nothing of it; and `dsld` and `dsrd` are mirror images under reversal of the bits. -/
def Obligations.DsrdPartitionsAndMirrorsDsld : Prop :=
  ∀ a b c : Word, ∀ n, n = b.toNat % 64 →
    (dsrdResults a b c).rt.toNat * 2 ^ 64 + (dsrdResults a b c).rs.toNat =
      (c.toNat - c.toNat % 2 ^ (64 - n)) * 2 ^ 64 + a.toNat * 2 ^ (64 - n) ∧
    (dsrdResults a b c).rs.toNat % 2 ^ (64 - n) = 0 ∧
    (∀ c' : Word, c'.toNat / 2 ^ (64 - n) = c.toNat / 2 ^ (64 - n) →
      (dsrdResults a b c').rt = (dsrdResults a b c).rt) ∧
    (∀ c' : Word, (dsrdResults a b c').rs = (dsrdResults a b c).rs) ∧
    (dsrdResults a.reverse b c.reverse).rt = (dsldResults a b c).rt.reverse ∧
    (dsrdResults a.reverse b c.reverse).rs = (dsldResults a b c).rs.reverse

/-! ### Chains over big integers -/

/-- R63: a `maddedu` chain through the carry register multiplies a big integer of any length by one limb and adds the
carry-in; the product's limbs stand in the RT registers and its top limb in the carry register. That the pc advances by
4 per instruction is the spec's decision D5 (log 10). -/
def Obligations.MaddeduChainMultiplies : Prop :=
  ∀ (rb rc : Reg) (links : List (Reg × Reg)) (s : State),
    chainOk rb rc links = true → s.pc.toNat + 4 * links.length < 2 ^ 64 →
    ∃ t, execAll (chainOf .maddedu rb rc links) s = .next t ∧
      limbsValue (links.map fun l => t.reg l.1) + (t.reg rc).toNat * 2 ^ (64 * links.length) =
        limbsValue (links.map fun l => s.reg l.2) * (s.reg rb).toNat + (s.reg rc).toNat ∧
      (∀ r, r ≠ rc → (∀ l ∈ links, r ≠ l.1) → t.reg r = s.reg r) ∧
      t.pc.toNat = s.pc.toNat + 4 * links.length ∧ t.cr = s.cr ∧ t.xer = s.xer

/-- R66: a `maddedus` chain multiplies an unsigned big integer by one signed limb and adds the signed carry-in; the sign
of the product stands in the carry register. That the pc advances by 4 per instruction is the spec's decision D5 (log
10). -/
def Obligations.MaddedusChainMultipliesSigned : Prop :=
  ∀ (rb rc : Reg) (links : List (Reg × Reg)) (s : State),
    chainOk rb rc links = true → s.pc.toNat + 4 * links.length < 2 ^ 64 →
    ∃ t, execAll (chainOf .maddedus rb rc links) s = .next t ∧
      (limbsValue (links.map fun l => t.reg l.1) : Int) + (t.reg rc).toInt * 2 ^ (64 * links.length) =
        limbsValue (links.map fun l => s.reg l.2) * (s.reg rb).toInt + (s.reg rc).toInt ∧
      (∀ r, r ≠ rc → (∀ l ∈ links, r ≠ l.1) → t.reg r = s.reg r) ∧
      t.pc.toNat = s.pc.toNat + 4 * links.length ∧ t.cr = s.cr ∧ t.xer = s.xer

/-- R74: a `dsld` chain, least significant limb first, shifts a big integer of any length left by n and brings in the
low n bits of the carry register, which ends with the bits shifted out of the top, below 2^n. Any of the instructions
may be a record form (program P3). That the pc advances by 4 per instruction is the spec's decision D5 (log 10), the
layout of CR its decision D20 (log 11). -/
def Obligations.DsldChainShiftsLeft : Prop :=
  ∀ (rb rc : Reg) (links : List ((Reg × Reg) × Bool)) (s : State) (n : Nat),
    n = (s.reg rb).toNat % 64 → links ≠ [] →
    chainOk rb rc (links.map Prod.fst) = true → s.pc.toNat + 4 * links.length < 2 ^ 64 →
    ∃ t, execAll (links.map fun l => .dsld l.1.1 l.1.2 rb rc l.2) s = .next t ∧
      limbsValue (links.map fun l => t.reg l.1.1) + (t.reg rc).toNat * 2 ^ (64 * links.length) =
        limbsValue (links.map fun l => s.reg l.1.2) * 2 ^ n + (s.reg rc).toNat % 2 ^ n ∧
      (t.reg rc).toNat < 2 ^ n ∧
      (∀ r, r ≠ rc → (∀ l ∈ links, r ≠ l.1.1) → t.reg r = s.reg r) ∧
      t.pc.toNat = s.pc.toNat + 4 * links.length ∧ t.xer = s.xer ∧
      ((∀ l ∈ links, l.2 = false) → t.cr = s.cr) ∧ (∀ k : Fin 8, k ≠ 0 → t.crField k = s.crField k)

/-- R77: a `dsrd` chain, most significant limb first, shifts a big integer of any length right by n: each limb takes its
top n bits from the limb above it, the top limb from the carry register, which ends with the low n bits of the lowest
limb, left-justified. Any of the instructions may be a record form. That the pc advances by 4 per instruction is the
spec's decision D5 (log 10), the layout of CR its decision D20 (log 11). -/
def Obligations.DsrdChainShiftsRight : Prop :=
  ∀ (rb rc : Reg) (links : List ((Reg × Reg) × Bool)) (s : State) (n : Nat),
    n = (s.reg rb).toNat % 64 →
    chainOk rb rc (links.map Prod.fst) = true → s.pc.toNat + 4 * links.length < 2 ^ 64 →
    ∃ t, execAll (links.map fun l => .dsrd l.1.1 l.1.2 rb rc l.2) s = .next t ∧
      (links.map fun l => (t.reg l.1.1).toNat) =
        rightShiftedLimbs n ((s.reg rc).toNat - (s.reg rc).toNat % 2 ^ (64 - n)) (links.map fun l => s.reg l.1.2) ∧
      (∀ l, links.getLast? = some l → (t.reg rc).toNat = (s.reg l.1.2).toNat % 2 ^ n * 2 ^ (64 - n)) ∧
      (∀ r, r ≠ rc → (∀ l ∈ links, r ≠ l.1.1) → t.reg r = s.reg r) ∧
      t.pc.toNat = s.pc.toNat + 4 * links.length ∧ t.xer = s.xer ∧
      ((∀ l ∈ links, l.2 = false) → t.cr = s.cr) ∧ (∀ k : Fin 8, k ≠ 0 → t.crField k = s.crField k)

/-- R69 and program P5: a `divmod2du` chain, most significant limb first, each remainder's register named as the next
RA, divides a big integer of any length by one limb: quotient in the RT registers, remainder below the divisor in the
last RC register. No step takes the error branch. That the pc advances by 4 per instruction is the spec's decision D5
(log 10). -/
def Obligations.DivmodChainDivides : Prop :=
  ∀ (ra rb : Reg) (links : List (Reg × Reg)) (s : State),
    (s.reg ra).toNat < (s.reg rb).toNat →
    divChainOk rb links = true → s.pc.toNat + 4 * links.length < 2 ^ 64 →
    ∃ t, execAll (divChainOf ra rb links) s = .next t ∧
      limbsBelow 0 (links.map fun l => t.reg l.1) * (s.reg rb).toNat + (t.reg (divChainRem ra links)).toNat =
        limbsBelow (s.reg ra).toNat (links.map fun l => s.reg l.2) ∧
      (t.reg (divChainRem ra links)).toNat < (s.reg rb).toNat ∧
      (∀ r, (∀ l ∈ links, r ≠ l.1 ∧ r ≠ l.2) → t.reg r = s.reg r) ∧
      t.pc.toNat = s.pc.toNat + 4 * links.length ∧ t.cr = s.cr ∧ t.xer = s.xer

/-! ### Rules of the spec that rest on none of its decisions -/

/-- R71: both shifts move x[RA] by the number in the low-order six bits of x[RB], at most 63, and the other 58 bits of
x[RB] are ignored: another state with the same x[RA], x[RC] and low six bits of x[RB] gets the same two results. It
holds with and without Rc = 1 and whatever registers RA and RB name. The registers RT and RC differ here; DsldResult and
DsrdResult say what the count does where they are one register. -/
def Obligations.ShiftsMoveByLowSixBitsOfRb : Prop :=
  ∀ (rt ra rb rc : Reg) (record : Bool) (s t : State) (n : Nat),
    rt ≠ rc → n = ((s.reg rb).extractLsb' 0 6).toNat →
    n ≤ 63 ∧
    (exec (.dsld rt ra rb rc record) s = .next t →
      (∀ j, j + n < 64 → (t.reg rt).getLsbD (j + n) = (s.reg ra).getLsbD j) ∧
      ∀ s' t' : State, s'.reg ra = s.reg ra → s'.reg rc = s.reg rc →
        (s'.reg rb).extractLsb' 0 6 = (s.reg rb).extractLsb' 0 6 → exec (.dsld rt ra rb rc record) s' = .next t' →
        t'.reg rt = t.reg rt ∧ t'.reg rc = t.reg rc) ∧
    (exec (.dsrd rt ra rb rc record) s = .next t →
      (∀ j, j + n < 64 → (t.reg rt).getLsbD j = (s.reg ra).getLsbD (j + n)) ∧
      ∀ s' t' : State, s'.reg ra = s.reg ra → s'.reg rc = s.reg rc →
        (s'.reg rb).extractLsb' 0 6 = (s.reg rb).extractLsb' 0 6 → exec (.dsrd rt ra rb rc record) s' = .next t' →
        t'.reg rt = t.reg rt ∧ t'.reg rc = t.reg rc)

/-- R97: no distance is required between two instructions. Of two consecutive steps, the second computes its results
from the registers as the first left them: from the first one's results where it reads, as RA, RB or RC, what that wrote
as RT or RS, and from the old values elsewhere; and neither writes instruction memory. An instruction whose own RT and
RC are one register has its result in the statement of that instruction. -/
def Obligations.NextInstructionSeesNewValues : Prop :=
  ∀ (i j : Instr) (s t u : State),
    fetchInstr s = .ok i → step s = .next t → fetchInstr t = .ok j → step t = .next u →
    (i.rt ≠ i.rc →
      t.reg i.rt = (resultsOf i (s.reg i.ra) (s.reg i.rb) (s.reg i.rc)).rt ∧
      t.reg i.rc = (resultsOf i (s.reg i.ra) (s.reg i.rb) (s.reg i.rc)).rs) ∧
    (∀ r, r ≠ i.rt → r ≠ i.rc → t.reg r = s.reg r) ∧
    (j.rt ≠ j.rc →
      u.reg j.rt = (resultsOf j (t.reg j.ra) (t.reg j.rb) (t.reg j.rc)).rt ∧
      u.reg j.rc = (resultsOf j (t.reg j.ra) (t.reg j.rb) (t.reg j.rc)).rs) ∧
    ∀ a, u.mem.read a = s.mem.read a

/-- R27: every instruction leaves XER as it was, and reads no bit of it: under any other XER the instruction completes
too and leaves the same registers, CR (CR0's fourth bit included), pc and memory, and that other XER. Where RT and RC
are one register, that register is set aside; XerIsNeverReadOrWritten speaks of it under one index of the draw. -/
def Obligations.XerIsOpaque : Prop :=
  ∀ (i : Instr) (s t : State) (xer : Word), exec i s = .next t →
    t.xer = s.xer ∧
    ∃ u, exec i { s with xer := xer } = .next u ∧ u.xer = xer ∧ u.cr = t.cr ∧ u.pc = t.pc ∧
      (∀ r, r ≠ i.rc ∨ i.rt ≠ i.rc → u.reg r = t.reg r) ∧ ∀ a, u.mem.read a = t.mem.read a
end

