-- ==== Sys2Proof/Laws/Assembly.lean ====
section
/-! SUPPORT. Source text, part by part: what `parseAssembly` finds in what `assemblyText` writes. -/

namespace Sys2Proof.Machine

open Sys2Proof

/-- A register operand holds no comma, no comment and no blank. -/
theorem regText_chars (r : Reg) : ∀ c ∈ regText r, c ≠ ',' ∧ c ≠ '#' ∧ isBlank c = false := by
  fin_cases r <;> simp [regText, digitChar, isBlank]

theorem regText_head (r : Reg) : ∃ c cs, regText r = c :: cs ∧ isBlank c = false := by
  unfold regText
  split <;> simp [isBlank]

theorem regText_last (r : Reg) : ∃ c cs, (regText r).reverse = c :: cs ∧ isBlank c = false := by
  fin_cases r <;> simp [regText, digitChar, isBlank]

theorem parseReg_regText (r : Reg) : parseReg (regText r) = some r := by
  fin_cases r <;> rfl

/-- A blank is neither a comma nor the start of a comment. -/
theorem isBlank_chars {c : Char} (h : isBlank c = true) : c ≠ ',' ∧ c ≠ '#' := by
  constructor <;> rintro rfl <;> simp [isBlank] at h

theorem mnemonicText_chars (i : Instr) : ∀ c ∈ mnemonicText i, c ≠ '#' ∧ isBlank c = false := by
  cases i with
  | dsld _ _ _ _ r => cases r <;> simp [mnemonicText, isBlank]
  | dsrd _ _ _ _ r => cases r <;> simp [mnemonicText, isBlank]
  | _ => simp [mnemonicText, isBlank]

theorem mnemonicText_head (i : Instr) : ∃ c cs, mnemonicText i = c :: cs := by
  cases i with
  | dsld _ _ _ _ r => cases r <;> simp [mnemonicText]
  | dsrd _ _ _ _ r => cases r <;> simp [mnemonicText]
  | _ => simp [mnemonicText]

/-- Every mnemonic names its own instruction. -/
theorem instrNamed_mnemonicText (i : Instr) : instrNamed (mnemonicText i) i.rt i.ra i.rb i.rc = some i := by
  cases i with
  | dsld _ _ _ _ r => cases r <;> simp [instrNamed, mnemonicText, Instr.rt, Instr.ra, Instr.rb, Instr.rc]
  | dsrd _ _ _ _ r => cases r <;> simp [instrNamed, mnemonicText, Instr.rt, Instr.ra, Instr.rb, Instr.rc]
  | _ => simp [instrNamed, mnemonicText, Instr.rt, Instr.ra, Instr.rb, Instr.rc]

theorem splitCommas_append (xs ys : List Char) (h : ∀ c ∈ xs, c ≠ ',') :
    splitCommas (xs ++ ',' :: ys) = xs :: splitCommas ys := by
  induction xs with
  | nil => simp [splitCommas]
  | cons x xs ih =>
    simp only [List.cons_append, splitCommas]
    rw [if_neg (h x (by simp)), ih (fun c hc => h c (by simp [hc]))]

theorem splitCommas_one (xs : List Char) (h : ∀ c ∈ xs, c ≠ ',') : splitCommas xs = [xs] := by
  induction xs with
  | nil => simp [splitCommas]
  | cons x xs ih =>
    simp only [splitCommas]
    rw [if_neg (h x (by simp)), ih (fun c hc => h c (by simp [hc]))]

/-- The leading part that meets a test, where what follows does not. -/
theorem takeWhile_exact (p : Char → Bool) (xs ys : List Char) (h : ∀ x ∈ xs, p x = true)
    (hy : ∀ y, ys.head? = some y → p y = false) : (xs ++ ys).takeWhile p = xs := by
  rw [List.takeWhile_append_of_pos h]
  cases ys with
  | nil => simp
  | cons y ys => simp [hy y rfl]

theorem dropWhile_exact (p : Char → Bool) (xs ys : List Char) (h : ∀ x ∈ xs, p x = true)
    (hy : ∀ y, ys.head? = some y → p y = false) : (xs ++ ys).dropWhile p = ys := by
  rw [List.dropWhile_append_of_pos h]
  cases ys with
  | nil => simp
  | cons y ys => simp [hy y rfl]

/-- Blanks at the end are dropped, back to a character that is none. -/
theorem trimEnd_append (xs bl : List Char) (hb : ∀ c ∈ bl, isBlank c = true) (c : Char) (cs : List Char)
    (hx : xs.reverse = c :: cs) (hc : isBlank c = false) : trimEnd (xs ++ bl) = xs := by
  rw [trimEnd, List.reverse_append, List.dropWhile_append_of_pos (by simpa using hb), hx,
    List.dropWhile_cons_of_neg (by simp [hc]), ← hx, List.reverse_reverse]

/-- Blanks before a register operand are dropped. -/
theorem dropBlanks_regText (b : List Char) (r : Reg) (hb : ∀ c ∈ b, isBlank c = true) :
    (b ++ regText r).dropWhile isBlank = regText r := by
  apply dropWhile_exact _ _ _ hb
  intro y hy
  obtain ⟨c, cs, h, h'⟩ := regText_head r
  rw [h] at hy
  simp at hy
  rw [← hy, h']

end Sys2Proof.Machine
end

