-- ==== Sys2Proof/Laws/Encoding.lean ====
section
/-! SUPPORT. Fields in and out of an instruction word, one lemma per field. -/

namespace Sys2Proof

/-- A concatenation as a number. -/
theorem append_toNat {m n : Nat} (x : BitVec m) (y : BitVec n) : (x ++ y).toNat = x.toNat * 2 ^ n + y.toNat := by
  rw [BitVec.toNat_append, ← Nat.shiftLeft_add_eq_or_of_lt y.isLt, Nat.shiftLeft_eq]

/-- The encoder as a number: the field formula of R51. -/
theorem encodeFields_toNat (rt ra rb rc : Reg) (low6 : BitVec 6) :
    (encodeFields rt ra rb rc low6).toNat =
      4 * 2 ^ 26 + rt.val * 2 ^ 21 + ra.val * 2 ^ 16 + rb.val * 2 ^ 11 + rc.val * 2 ^ 6 + low6.toNat := by
  have h1 := rt.isLt
  have h2 := ra.isLt
  have h3 := rb.isLt
  have h4 := rc.isLt
  have h5 := low6.isLt
  have reg : ∀ r : Reg, (regBits r).toNat = r.val := fun r => rfl
  have po : primaryOpcode.toNat = 4 := rfl
  unfold encodeFields
  erw [append_toNat, append_toNat, append_toNat, append_toNat, append_toNat]
  rw [reg, reg, reg, reg, po]
  omega

/-- A field of a word as an integer. -/
theorem field_toNat (w : InsnWord) (lo len : Nat) : (w.extractLsb' lo len).toNat = w.toNat / 2 ^ lo % 2 ^ len := by
  rw [BitVec.extractLsb'_toNat, Nat.shiftRight_eq_div_pow]

/-- A register field of a word as an integer. -/
theorem fieldReg_val (w : InsnWord) (lo : Nat) : (fieldReg lo w).val = w.toNat / 2 ^ lo % 2 ^ 5 :=
  field_toNat w lo 5

@[simp] theorem fieldPO_encodeFields (rt ra rb rc : Reg) (low6 : BitVec 6) :
    fieldPO (encodeFields rt ra rb rc low6) = primaryOpcode := by
  refine BitVec.eq_of_toNat_eq ?_
  rw [fieldPO, field_toNat, encodeFields_toNat, show primaryOpcode.toNat = 4 from rfl]
  have := rt.isLt; have := ra.isLt; have := rb.isLt; have := rc.isLt; have := low6.isLt
  omega

@[simp] theorem fieldRT_encodeFields (rt ra rb rc : Reg) (low6 : BitVec 6) :
    fieldRT (encodeFields rt ra rb rc low6) = rt := by
  refine Fin.ext ?_
  rw [fieldRT, fieldReg_val, encodeFields_toNat]
  have := rt.isLt; have := ra.isLt; have := rb.isLt; have := rc.isLt; have := low6.isLt
  omega

@[simp] theorem fieldRA_encodeFields (rt ra rb rc : Reg) (low6 : BitVec 6) :
    fieldRA (encodeFields rt ra rb rc low6) = ra := by
  refine Fin.ext ?_
  rw [fieldRA, fieldReg_val, encodeFields_toNat]
  have := rt.isLt; have := ra.isLt; have := rb.isLt; have := rc.isLt; have := low6.isLt
  omega

@[simp] theorem fieldRB_encodeFields (rt ra rb rc : Reg) (low6 : BitVec 6) :
    fieldRB (encodeFields rt ra rb rc low6) = rb := by
  refine Fin.ext ?_
  rw [fieldRB, fieldReg_val, encodeFields_toNat]
  have := rt.isLt; have := ra.isLt; have := rb.isLt; have := rc.isLt; have := low6.isLt
  omega

@[simp] theorem fieldRC_encodeFields (rt ra rb rc : Reg) (low6 : BitVec 6) :
    fieldRC (encodeFields rt ra rb rc low6) = rc := by
  refine Fin.ext ?_
  rw [fieldRC, fieldReg_val, encodeFields_toNat]
  have := rt.isLt; have := ra.isLt; have := rb.isLt; have := rc.isLt; have := low6.isLt
  omega

@[simp] theorem fieldXO6_encodeFields (rt ra rb rc : Reg) (low6 : BitVec 6) :
    fieldXO6 (encodeFields rt ra rb rc low6) = low6 := by
  refine BitVec.eq_of_toNat_eq ?_
  rw [fieldXO6, field_toNat, encodeFields_toNat]
  have := rt.isLt; have := ra.isLt; have := rb.isLt; have := rc.isLt; have := low6.isLt
  omega

/-- XO and Rc of VA2-Form as one 6-bit number (R47). -/
theorem low6_toNat (xo : BitVec 5) (record : Bool) :
    (xo ++ BitVec.ofBool record : BitVec 6).toNat = xo.toNat * 2 + record.toNat := by
  have := xo.isLt
  rw [BitVec.toNat_append, ← Nat.shiftLeft_add_eq_or_of_lt (BitVec.ofBool record).isLt, Nat.shiftLeft_eq]
  cases record <;> rfl

@[simp] theorem fieldXO5_encodeFields (rt ra rb rc : Reg) (xo : BitVec 5) (record : Bool) :
    fieldXO5 (encodeFields rt ra rb rc (xo ++ BitVec.ofBool record)) = xo := by
  refine BitVec.eq_of_toNat_eq ?_
  rw [fieldXO5, field_toNat, encodeFields_toNat, low6_toNat]
  have := rt.isLt; have := ra.isLt; have := rb.isLt; have := rc.isLt; have := xo.isLt
  cases record <;> simp <;> omega

@[simp] theorem fieldRc_encodeFields (rt ra rb rc : Reg) (xo : BitVec 5) (record : Bool) :
    fieldRc (encodeFields rt ra rb rc (xo ++ BitVec.ofBool record)) = record := by
  rw [fieldRc, BitVec.getLsbD, Nat.testBit_zero, encodeFields_toNat, low6_toNat]
  cases record <;> simp <;> omega

/-- Every word is its own fields put back together. -/
theorem encodeFields_of_fields (w : InsnWord) (h : fieldPO w = primaryOpcode) :
    encodeFields (fieldRT w) (fieldRA w) (fieldRB w) (fieldRC w) (fieldXO6 w) = w := by
  have hp : w.toNat / 2 ^ 26 % 2 ^ 6 = 4 := by
    have := congrArg BitVec.toNat h
    rwa [fieldPO, field_toNat] at this
  refine BitVec.eq_of_toNat_eq ?_
  rw [encodeFields_toNat, fieldRT, fieldRA, fieldRB, fieldRC, fieldReg_val, fieldReg_val, fieldReg_val, fieldReg_val,
    fieldXO6, field_toNat]
  have := w.isLt
  omega

/-- The six low bits of a word are its XO5 and its Rc. -/
theorem fieldXO6_eq_append (w : InsnWord) : fieldXO6 w = fieldXO5 w ++ BitVec.ofBool (fieldRc w) := by
  refine BitVec.eq_of_toNat_eq ?_
  rw [low6_toNat, fieldXO6, fieldXO5, field_toNat, field_toNat, fieldRc, BitVec.getLsbD, Nat.testBit_zero]
  rcases Nat.mod_two_eq_zero_or_one w.toNat with h | h <;> simp [h] <;> omega

/-- The primary opcode is 4, as a number of the word. -/
theorem fieldPO_eq_iff (w : InsnWord) : fieldPO w = primaryOpcode ↔ w.toNat / 2 ^ 26 = 4 := by
  rw [← BitVec.toNat_inj, fieldPO, field_toNat, show primaryOpcode.toNat = 4 from rfl]
  have := w.isLt
  omega

theorem fieldXO6_eq_iff (w : InsnWord) (x : BitVec 6) : fieldXO6 w = x ↔ w.toNat % 64 = x.toNat := by
  rw [← BitVec.toNat_inj, fieldXO6, field_toNat]
  simp

theorem fieldXO5_eq_iff (w : InsnWord) (x : BitVec 5) : fieldXO5 w = x ↔ w.toNat / 2 % 32 = x.toNat := by
  rw [← BitVec.toNat_inj, fieldXO5, field_toNat]
  simp

/-- A VA2-Form extended opcode is two of the six-bit patterns (R50). -/
theorem fieldXO5_eq_iff_pattern (w : InsnWord) (x : BitVec 5) :
    fieldXO5 w = x ↔ fieldXO6 w = x ++ 0#1 ∨ fieldXO6 w = x ++ 1#1 := by
  rw [fieldXO5_eq_iff, fieldXO6_eq_iff, fieldXO6_eq_iff, append_toNat, append_toNat]
  simp only [BitVec.toNat_ofNat]
  omega

/-- Decoding fails in one way only. -/
theorem decode_eq_error {x : XoParams} {w : InsnWord} {e : DecodeRefusal} (h : decode x w = .error e) :
    e = .notLs003Instruction := by
  unfold decode at h
  split_ifs at h <;> simp_all

/-! ### Bytes (R34) -/

theorem wordBytes_length (order : ByteOrder) (w : InsnWord) : (wordBytes order w).length = 4 := by
  cases order <;> rfl

theorem textBytes_cons (order : ByteOrder) (w : InsnWord) (ws : List InsnWord) :
    textBytes order (w :: ws) = wordBytes order w ++ textBytes order ws := rfl

theorem textBytes_length (order : ByteOrder) (ws : List InsnWord) : (textBytes order ws).length = 4 * ws.length := by
  induction ws with
  | nil => rfl
  | cons w ws ih => rw [textBytes_cons, List.length_append, wordBytes_length, ih, List.length_cons]; omega

/-- The k-th word of a text stands at byte 4*k. -/
theorem textBytes_word (order : ByteOrder) (ws : List InsnWord) (k : Nat) (hk : k < ws.length) :
    ((textBytes order ws).drop (4 * k)).take 4 = wordBytes order ws[k] := by
  induction ws generalizing k with
  | nil => simp at hk
  | cons w ws ih =>
    rw [textBytes_cons]
    cases k with
    | zero => simp [wordBytes_length]
    | succ k =>
      rw [show 4 * (k + 1) = (wordBytes order w).length + 4 * k by rw [wordBytes_length]; omega,
        List.drop_length_add_append]
      simpa using ih k (by simpa using hk)

/-- A big-endian word from its own bytes; a little-endian one is the same with the arguments reversed. -/
theorem assembleWord_bytes (w : InsnWord) :
    assembleWord .big (w.extractLsb' 24 8) (w.extractLsb' 16 8) (w.extractLsb' 8 8) (w.extractLsb' 0 8) = w := by
  refine BitVec.eq_of_toNat_eq ?_
  unfold assembleWord
  dsimp only
  erw [append_toNat, append_toNat, append_toNat]
  rw [field_toNat, field_toNat, field_toNat, field_toNat]
  have := w.isLt
  omega

/-- Decoding the bytes of a word, in either order, decodes the word. -/
theorem decodeBytes_wordBytes (c : Config) (w : InsnWord) (rest : List Byte) :
    decodeBytes c (wordBytes c.byteOrder w ++ rest) = (decode c.xo w).map (·, rest) := by
  have key := assembleWord_bytes w
  have key' : assembleWord .little (w.extractLsb' 0 8) (w.extractLsb' 8 8) (w.extractLsb' 16 8) (w.extractLsb' 24 8) = w :=
    key
  cases hc : c.byteOrder <;>
    simp only [wordBytes, hc, List.cons_append, List.nil_append, decodeBytes, key, key'] <;>
    cases decode c.xo w <;> rfl

/-! ### The two masks of the opcode table (R51) -/

theorem mask6_toNat (w : InsnWord) : (w &&& 0xFC00003F).toNat = w.toNat / 2 ^ 26 * 2 ^ 26 + w.toNat % 64 := by
  have : (w &&& 0xFC00003F) = (w.extractLsb' 26 6 ++ 0#20 ++ w.extractLsb' 0 6 : BitVec 32) := by
    refine BitVec.eq_of_getLsbD_eq fun j hj => ?_
    erw [BitVec.getLsbD_append, BitVec.getLsbD_append]
    interval_cases j <;> simp
  rw [this]
  erw [append_toNat, append_toNat]
  rw [field_toNat, field_toNat]
  have := w.isLt
  simp
  omega

theorem mask5_toNat (w : InsnWord) : (w &&& 0xFC00003E).toNat = w.toNat / 2 ^ 26 * 2 ^ 26 + w.toNat / 2 % 32 * 2 := by
  have : (w &&& 0xFC00003E) = (w.extractLsb' 26 6 ++ 0#20 ++ w.extractLsb' 1 5 ++ 0#1 : BitVec 32) := by
    refine BitVec.eq_of_getLsbD_eq fun j hj => ?_
    erw [BitVec.getLsbD_append, BitVec.getLsbD_append, BitVec.getLsbD_append]
    interval_cases j <;> simp
  rw [this]
  erw [append_toNat, append_toNat, append_toNat]
  rw [field_toNat, field_toNat]
  have := w.isLt
  simp
  omega

end Sys2Proof
end

