-- ==== Sys2Proof/Laws/State.lean ====
section
/-! SUPPORT. One lemma per field per update of State, and per accessor, so that no later proof unfolds an update. -/

namespace Sys2Proof.Machine

open Sys2Proof

/-! ### setReg -/

@[simp] theorem State.setReg_gpr (s : State) (r : Reg) (v : Word) : (s.setReg r v).gpr = s.gpr.set r.val v := rfl
@[simp] theorem State.setReg_pc (s : State) (r : Reg) (v : Word) : (s.setReg r v).pc = s.pc := rfl
@[simp] theorem State.setReg_cr (s : State) (r : Reg) (v : Word) : (s.setReg r v).cr = s.cr := rfl
@[simp] theorem State.setReg_xer (s : State) (r : Reg) (v : Word) : (s.setReg r v).xer = s.xer := rfl
@[simp] theorem State.setReg_mem (s : State) (r : Reg) (v : Word) : (s.setReg r v).mem = s.mem := rfl
@[simp] theorem State.setReg_progBase (s : State) (r : Reg) (v : Word) : (s.setReg r v).progBase = s.progBase := rfl
@[simp] theorem State.setReg_progLen (s : State) (r : Reg) (v : Word) : (s.setReg r v).progLen = s.progLen := rfl
@[simp] theorem State.setReg_config (s : State) (r : Reg) (v : Word) : (s.setReg r v).config = s.config := rfl
@[simp] theorem State.setReg_draws (s : State) (r : Reg) (v : Word) : (s.setReg r v).draws = s.draws := rfl

/-! ### advancePc -/

@[simp] theorem State.advancePc_gpr (s : State) : (s.advancePc).gpr = s.gpr := rfl
@[simp] theorem State.advancePc_pc (s : State) : (s.advancePc).pc = s.pc + 4 := rfl
@[simp] theorem State.advancePc_cr (s : State) : (s.advancePc).cr = s.cr := rfl
@[simp] theorem State.advancePc_xer (s : State) : (s.advancePc).xer = s.xer := rfl
@[simp] theorem State.advancePc_mem (s : State) : (s.advancePc).mem = s.mem := rfl
@[simp] theorem State.advancePc_progBase (s : State) : (s.advancePc).progBase = s.progBase := rfl
@[simp] theorem State.advancePc_progLen (s : State) : (s.advancePc).progLen = s.progLen := rfl
@[simp] theorem State.advancePc_config (s : State) : (s.advancePc).config = s.config := rfl
@[simp] theorem State.advancePc_draws (s : State) : (s.advancePc).draws = s.draws := rfl

/-! ### setCr0 -/

@[simp] theorem State.setCr0_gpr (s : State) (v : BitVec 4) : (s.setCr0 v).gpr = s.gpr := rfl
@[simp] theorem State.setCr0_pc (s : State) (v : BitVec 4) : (s.setCr0 v).pc = s.pc := rfl
@[simp] theorem State.setCr0_cr (s : State) (v : BitVec 4) : (s.setCr0 v).cr = v ++ s.cr.extractLsb' 0 28 := rfl
@[simp] theorem State.setCr0_xer (s : State) (v : BitVec 4) : (s.setCr0 v).xer = s.xer := rfl
@[simp] theorem State.setCr0_mem (s : State) (v : BitVec 4) : (s.setCr0 v).mem = s.mem := rfl
@[simp] theorem State.setCr0_progBase (s : State) (v : BitVec 4) : (s.setCr0 v).progBase = s.progBase := rfl
@[simp] theorem State.setCr0_progLen (s : State) (v : BitVec 4) : (s.setCr0 v).progLen = s.progLen := rfl
@[simp] theorem State.setCr0_config (s : State) (v : BitVec 4) : (s.setCr0 v).config = s.config := rfl
@[simp] theorem State.setCr0_draws (s : State) (v : BitVec 4) : (s.setCr0 v).draws = s.draws := rfl

/-! ### loadProgram -/

@[simp] theorem State.loadProgram_gpr (s : State) (base : Word) (words : List InsnWord) : (s.loadProgram base words).gpr = s.gpr := rfl
@[simp] theorem State.loadProgram_pc (s : State) (base : Word) (words : List InsnWord) : (s.loadProgram base words).pc = s.pc := rfl
@[simp] theorem State.loadProgram_cr (s : State) (base : Word) (words : List InsnWord) : (s.loadProgram base words).cr = s.cr := rfl
@[simp] theorem State.loadProgram_xer (s : State) (base : Word) (words : List InsnWord) : (s.loadProgram base words).xer = s.xer := rfl
@[simp] theorem State.loadProgram_mem (s : State) (base : Word) (words : List InsnWord) : (s.loadProgram base words).mem = s.mem.load base.toNat (textBytes s.config.byteOrder words) := rfl
@[simp] theorem State.loadProgram_progBase (s : State) (base : Word) (words : List InsnWord) : (s.loadProgram base words).progBase = base := rfl
@[simp] theorem State.loadProgram_progLen (s : State) (base : Word) (words : List InsnWord) : (s.loadProgram base words).progLen = words.length := rfl
@[simp] theorem State.loadProgram_config (s : State) (base : Word) (words : List InsnWord) : (s.loadProgram base words).config = s.config := rfl
@[simp] theorem State.loadProgram_draws (s : State) (base : Word) (words : List InsnWord) : (s.loadProgram base words).draws = s.draws := rfl

/-! ### recordCr0 -/

@[simp] theorem State.recordCr0_gpr (s : State) (record : Bool) (v : Results) :
    (s.recordCr0 record v).gpr = s.gpr := by
  cases record <;> rfl
@[simp] theorem State.recordCr0_pc (s : State) (record : Bool) (v : Results) :
    (s.recordCr0 record v).pc = s.pc := by
  cases record <;> rfl
@[simp] theorem State.recordCr0_cr (s : State) (record : Bool) (v : Results) :
    (s.recordCr0 record v).cr = if record then cr0Of v ++ s.cr.extractLsb' 0 28 else s.cr := by
  cases record <;> rfl
@[simp] theorem State.recordCr0_xer (s : State) (record : Bool) (v : Results) :
    (s.recordCr0 record v).xer = s.xer := by
  cases record <;> rfl
@[simp] theorem State.recordCr0_mem (s : State) (record : Bool) (v : Results) :
    (s.recordCr0 record v).mem = s.mem := by
  cases record <;> rfl
@[simp] theorem State.recordCr0_progBase (s : State) (record : Bool) (v : Results) :
    (s.recordCr0 record v).progBase = s.progBase := by
  cases record <;> rfl
@[simp] theorem State.recordCr0_progLen (s : State) (record : Bool) (v : Results) :
    (s.recordCr0 record v).progLen = s.progLen := by
  cases record <;> rfl
@[simp] theorem State.recordCr0_config (s : State) (record : Bool) (v : Results) :
    (s.recordCr0 record v).config = s.config := by
  cases record <;> rfl
@[simp] theorem State.recordCr0_draws (s : State) (record : Bool) (v : Results) :
    (s.recordCr0 record v).draws = s.draws := by
  cases record <;> rfl

/-! ### writeResults -/

@[simp] theorem State.writeResults_pc (s : State) (rt rc : Reg) (v : Results) :
    (s.writeResults rt rc v).pc = s.pc := by
  unfold State.writeResults; split <;> rfl
@[simp] theorem State.writeResults_cr (s : State) (rt rc : Reg) (v : Results) :
    (s.writeResults rt rc v).cr = s.cr := by
  unfold State.writeResults; split <;> rfl
@[simp] theorem State.writeResults_xer (s : State) (rt rc : Reg) (v : Results) :
    (s.writeResults rt rc v).xer = s.xer := by
  unfold State.writeResults; split <;> rfl
@[simp] theorem State.writeResults_mem (s : State) (rt rc : Reg) (v : Results) :
    (s.writeResults rt rc v).mem = s.mem := by
  unfold State.writeResults; split <;> rfl
@[simp] theorem State.writeResults_progBase (s : State) (rt rc : Reg) (v : Results) :
    (s.writeResults rt rc v).progBase = s.progBase := by
  unfold State.writeResults; split <;> rfl
@[simp] theorem State.writeResults_progLen (s : State) (rt rc : Reg) (v : Results) :
    (s.writeResults rt rc v).progLen = s.progLen := by
  unfold State.writeResults; split <;> rfl
@[simp] theorem State.writeResults_config (s : State) (rt rc : Reg) (v : Results) :
    (s.writeResults rt rc v).config = s.config := by
  unfold State.writeResults; split <;> rfl
@[simp] theorem State.writeResults_draws (s : State) (rt rc : Reg) (v : Results) :
    (s.writeResults rt rc v).draws = if rt = rc then s.draws + 1 else s.draws := by
  unfold State.writeResults; split <;> rfl

/-! ### Reading a register -/

/-- Reading back the register just written, and any other (R18: no register is special). -/
theorem State.reg_setReg (s : State) (r q : Reg) (v : Word) :
    (s.setReg r v).reg q = if r = q then v else s.reg q := by
  simp only [State.reg, State.setReg_gpr, Vector.getElem_set, Fin.val_inj]

@[simp] theorem State.reg_setReg_self (s : State) (r : Reg) (v : Word) : (s.setReg r v).reg r = v := by
  simp [State.reg_setReg]

@[simp] theorem State.reg_setReg_ne (s : State) (r q : Reg) (v : Word) (h : r ≠ q) :
    (s.setReg r v).reg q = s.reg q := by
  simp [State.reg_setReg, h]

@[simp] theorem State.advancePc_reg (s : State) (r : Reg) : s.advancePc.reg r = s.reg r := rfl

@[simp] theorem State.setCr0_reg (s : State) (v : BitVec 4) (r : Reg) : (s.setCr0 v).reg r = s.reg r := rfl

@[simp] theorem State.recordCr0_reg (s : State) (record : Bool) (v : Results) (r : Reg) :
    (s.recordCr0 record v).reg r = s.reg r := by
  simp [State.reg]

@[simp] theorem State.loadProgram_reg (s : State) (base : Word) (words : List InsnWord) (r : Reg) :
    (s.loadProgram base words).reg r = s.reg r := rfl

/-- RT and RC differ: RS holds the RS value (R20, R21). -/
theorem State.writeResults_reg_rc (s : State) (rt rc : Reg) (v : Results) (h : rt ≠ rc) :
    (s.writeResults rt rc v).reg rc = v.rs := by
  simp [State.writeResults, h]

/-- RT and RC differ: RT holds the RT value (R21). -/
theorem State.writeResults_reg_rt (s : State) (rt rc : Reg) (v : Results) (h : rt ≠ rc) :
    (s.writeResults rt rc v).reg rt = v.rt := by
  simp [State.writeResults, h, Ne.symm h]

/-- RT and RC are one register: it holds one of the two values, and which is not known (R21). -/
theorem State.writeResults_reg_draw (s : State) (r : Reg) (v : Results) :
    (s.writeResults r r v).reg r = v.rt ∨ (s.writeResults r r v).reg r = v.rs := by
  have h : (s.writeResults r r v).reg r = if Config.drawTakesRs s.draws then v.rs else v.rt := by
    simp only [State.writeResults, if_true]
    exact State.reg_setReg_self s r _
  rw [h]
  split
  · exact .inr rfl
  · exact .inl rfl

/-- Every other register keeps its value (R19). -/
theorem State.writeResults_reg_other (s : State) (rt rc r : Reg) (v : Results) (ht : r ≠ rt) (hc : r ≠ rc) :
    (s.writeResults rt rc v).reg r = s.reg r := by
  unfold State.writeResults
  split
  · exact State.reg_setReg_ne s rc r _ (Ne.symm hc)
  · rw [State.reg_setReg_ne _ _ _ _ (Ne.symm hc), State.reg_setReg_ne _ _ _ _ (Ne.symm ht)]

/-! ### renamed -/

@[simp] theorem State.renamed_gpr (p : Equiv.Perm Reg) (s : State) :
    (s.renamed p).gpr = Vector.ofFn (fun r => s.reg (p.symm r)) := by simp only [State.renamed]
@[simp] theorem State.renamed_pc (p : Equiv.Perm Reg) (s : State) :
    (s.renamed p).pc = s.pc := by simp only [State.renamed]
@[simp] theorem State.renamed_cr (p : Equiv.Perm Reg) (s : State) :
    (s.renamed p).cr = s.cr := by simp only [State.renamed]
@[simp] theorem State.renamed_xer (p : Equiv.Perm Reg) (s : State) :
    (s.renamed p).xer = s.xer := by simp only [State.renamed]
@[simp] theorem State.renamed_mem (p : Equiv.Perm Reg) (s : State) :
    (s.renamed p).mem = s.mem := by simp only [State.renamed]
@[simp] theorem State.renamed_progBase (p : Equiv.Perm Reg) (s : State) :
    (s.renamed p).progBase = s.progBase := by simp only [State.renamed]
@[simp] theorem State.renamed_progLen (p : Equiv.Perm Reg) (s : State) :
    (s.renamed p).progLen = s.progLen := by simp only [State.renamed]
@[simp] theorem State.renamed_config (p : Equiv.Perm Reg) (s : State) :
    (s.renamed p).config = s.config := by simp only [State.renamed]
@[simp] theorem State.renamed_draws (p : Equiv.Perm Reg) (s : State) :
    (s.renamed p).draws = s.draws := by simp only [State.renamed]

theorem State.renamed_reg (p : Equiv.Perm Reg) (s : State) (r : Reg) : (s.renamed p).reg r = s.reg (p.symm r) := by
  simp [State.reg]

/-- Two states that agree in every field, register by register, are equal. -/
theorem State.eq_of_fields {s t : State} (hg : ∀ r, s.reg r = t.reg r) (hpc : s.pc = t.pc) (hcr : s.cr = t.cr)
    (hx : s.xer = t.xer) (hm : s.mem = t.mem) (hb : s.progBase = t.progBase) (hl : s.progLen = t.progLen)
    (hc : s.config = t.config) (hd : s.draws = t.draws) : s = t := by
  have hv : s.gpr = t.gpr := Vector.ext fun k hk => hg ⟨k, hk⟩
  cases s
  cases t
  simp_all

end Sys2Proof.Machine
end

