-- ==== Sys2Proof/Laws/Ops.lean ====
section
/-! SUPPORT. What each shared operation can do, said once: completion, instruction memory, fetch. -/

namespace Sys2Proof.Machine

open Sys2Proof

/-! ### Completion (R21, R23) -/

/-- Below the top of the address space an instruction completes. -/
theorem complete_next (rt rc : Reg) (v : Results) (s : State) (h : s.pc.toNat + 4 < 2 ^ 64) :
    complete rt rc v s = .next (s.writeResults rt rc v).advancePc := by
  simp only [complete, if_pos h]

/-- At the top of the address space it is refused. -/
theorem complete_refused (rt rc : Reg) (v : Results) (s : State) (h : 2 ^ 64 ≤ s.pc.toNat + 4) :
    complete rt rc v s = .refused .pcWrap := by
  simp only [complete, if_neg (Nat.not_lt.mpr h)]

/-- Inversion: if completion answers a next state, it is the written and advanced one, and the pc was below the top. -/
theorem complete_eq_next {rt rc : Reg} {v : Results} {s t : State} (h : complete rt rc v s = .next t) :
    s.pc.toNat + 4 < 2 ^ 64 ∧ t = (s.writeResults rt rc v).advancePc := by
  unfold complete at h
  split at h
  · next hp => exact ⟨hp, (Host.Outcome.next.inj h).symm⟩
  · cases h

/-- The pc after completion, as an integer: no wrap can have happened. -/
theorem advancePc_toNat (s : State) (h : s.pc.toNat + 4 < 2 ^ 64) : (s.pc + 4).toNat = s.pc.toNat + 4 := by
  rw [BitVec.toNat_add]
  exact Nat.mod_eq_of_lt h

/-! ### Instruction memory -/

namespace Memory

@[simp] theorem read_nil (a : Nat) : Memory.read [] a = none := rfl

theorem read_cons (k : Nat) (v : Byte) (m : Memory) (a : Nat) :
    Memory.read ((k, v) :: m) a = if a = k then some v else Memory.read m a := rfl

/-- No byte is found below every listed address. -/
theorem read_eq_none_of_lt {m : Memory} {a : Nat} (h : ∀ p ∈ m, a < p.1) : Memory.read m a = none := by
  induction m with
  | nil => rfl
  | cons p m ih =>
    obtain ⟨k, v⟩ := p
    have hk : a < k := h (k, v) (by simp)
    rw [read_cons, if_neg (by omega)]
    exact ih (fun q hq => h q (by simp [hq]))

/-- Read after insert, anywhere. -/
theorem read_insert {m : Memory} (hm : m.Pairwise (fun p q => p.1 < q.1)) (a b : Nat) (v : Byte) :
    Memory.read (Memory.insert m a v) b = if b = a then some v else Memory.read m b := by
  induction m with
  | nil => simp [Memory.insert, read_cons]
  | cons p m ih =>
    obtain ⟨k, w⟩ := p
    rw [List.pairwise_cons] at hm
    simp only [Memory.insert]
    split
    · simp [read_cons]
    · split
      · next h => subst h; simp only [read_cons]; split <;> rfl
      · simp only [read_cons, ih hm.2]
        split <;> split <;> first | rfl | omega

theorem mem_insert {m : Memory} {a : Nat} {v : Byte} {p : Host.Cell} (h : p ∈ Memory.insert m a v) :
    p.1 = a ∨ p ∈ m := by
  induction m with
  | nil => simp [Memory.insert] at h; simp [h]
  | cons q m ih =>
    obtain ⟨k, w⟩ := q
    simp only [Memory.insert] at h
    split at h
    · simp at h; rcases h with rfl | h | h <;> simp [*]
    · split at h
      · next hk => simp at h; rcases h with rfl | h <;> simp [*]
      · simp at h
        rcases h with rfl | h
        · simp
        · rcases ih h with h | h <;> simp [h]

theorem insert_pairwise {m : Memory} (hm : m.Pairwise (fun p q => p.1 < q.1)) (a : Nat) (v : Byte) :
    (Memory.insert m a v).Pairwise (fun p q => p.1 < q.1) := by
  induction m with
  | nil => simp [Memory.insert]
  | cons p m ih =>
    obtain ⟨k, w⟩ := p
    have hm' := hm
    rw [List.pairwise_cons] at hm
    simp only [Memory.insert]
    split
    · next h =>
      refine List.pairwise_cons.mpr ⟨fun q hq => ?_, hm'⟩
      rcases List.mem_cons.mp hq with rfl | hq
      · exact h
      · exact Nat.lt_trans h (hm.1 q hq)
    · split
      · exact List.pairwise_cons.mpr ⟨fun q hq => hm.1 q hq, hm.2⟩
      · refine List.pairwise_cons.mpr ⟨fun q hq => ?_, ih hm.2⟩
        rcases mem_insert hq with h | h
        · omega
        · exact hm.1 q h

/-- A write keeps the canonical form. -/
theorem write_wf {m : Memory} (hm : Memory.wf m) (a : Nat) (v : Byte) : Memory.wf (Memory.write m a v) := by
  unfold Memory.write
  split
  · next ha =>
    refine ⟨insert_pairwise hm.1 a v, fun p hp => ?_⟩
    rcases mem_insert hp with h | h
    · omega
    · exact hm.2 p h
  · exact hm

/-- A load keeps the canonical form. -/
theorem load_wf {m : Memory} (hm : Memory.wf m) (a : Nat) (bs : List Byte) : Memory.wf (Memory.load m a bs) := by
  induction bs generalizing m a with
  | nil => exact hm
  | cons b bs ih => exact ih (write_wf hm a b) (a + 1)

/-- Read after write, at the same address and at any other. -/
theorem read_write {m : Memory} (hm : Memory.wf m) (a b : Nat) (v : Byte) (ha : a < 2 ^ 64) :
    Memory.read (Memory.write m a v) b = if b = a then some v else Memory.read m b := by
  rw [Memory.write, if_pos ha]
  exact read_insert hm.1 a b v

/-- A load leaves every address outside its bytes alone. -/
theorem read_load_other {m : Memory} (hm : Memory.wf m) (a b : Nat) (bs : List Byte)
    (hfit : a + bs.length ≤ 2 ^ 64) (hb : b < a ∨ a + bs.length ≤ b) :
    Memory.read (Memory.load m a bs) b = Memory.read m b := by
  induction bs generalizing m a with
  | nil => rfl
  | cons x xs ih =>
    simp only [List.length_cons] at hfit hb
    rw [Memory.load, ih (write_wf hm a x) (a + 1) (by omega) (by omega), read_write hm a b x (by omega),
      if_neg (by omega)]

/-- Read after load: the `k`-th byte stands at the `k`-th address. -/
theorem read_load {m : Memory} (hm : Memory.wf m) (a k : Nat) (bs : List Byte)
    (hfit : a + bs.length ≤ 2 ^ 64) (hk : k < bs.length) :
    Memory.read (Memory.load m a bs) (a + k) = some bs[k] := by
  induction bs generalizing m a k with
  | nil => simp at hk
  | cons x xs ih =>
    simp only [List.length_cons] at hfit hk
    rw [Memory.load]
    cases k with
    | zero =>
      rw [read_load_other (write_wf hm a x) (a + 1) (a + 0) xs (by omega) (by omega),
        read_write hm a (a + 0) x (by omega)]
      simp
    | succ k =>
      have h := ih (write_wf hm a x) (a + 1) k (by omega) (by omega)
      rw [show a + (k + 1) = a + 1 + k by omega, h]
      simp

theorem readBytes_succ (m : Memory) (a n : Nat) {b : Byte} {bs : List Byte}
    (hb : Memory.read m a = some b) (hbs : Memory.readBytes m (a + 1) n = some bs) :
    Memory.readBytes m a (n + 1) = some (b :: bs) := by
  simp [Memory.readBytes, hb, hbs]

/-- Four bytes are read exactly when each is there. -/
theorem readBytes_four (m : Memory) (a : Nat) {b0 b1 b2 b3 : Byte}
    (h0 : Memory.read m a = some b0) (h1 : Memory.read m (a + 1) = some b1)
    (h2 : Memory.read m (a + 2) = some b2) (h3 : Memory.read m (a + 3) = some b3) :
    Memory.readBytes m a 4 = some [b0, b1, b2, b3] := by
  simp [Memory.readBytes, h0, h1, h2, h3]

/-- What `MemRead` gives has the length asked for. -/
theorem readBytes_length {m : Memory} {a n : Nat} {bs : List Byte} (h : Memory.readBytes m a n = some bs) :
    bs.length = n := by
  induction n generalizing a bs with
  | zero => simp [Memory.readBytes] at h; simp [← h]
  | succ n ih =>
    simp only [Memory.readBytes] at h
    split at h
    · next b bs' hb hbs => rw [← Option.some.inj h]; simp [ih hbs]
    · cases h

/-- `MemRead` succeeds when every byte is there. -/
theorem readBytes_isSome {m : Memory} {a n : Nat} (h : ∀ k < n, (Memory.read m (a + k)).isSome = true) :
    ∃ bs, Memory.readBytes m a n = some bs := by
  induction n generalizing a with
  | zero => exact ⟨[], rfl⟩
  | succ n ih =>
    obtain ⟨b, hb⟩ := Option.isSome_iff_exists.mp (h 0 (by omega))
    obtain ⟨bs, hbs⟩ := ih (a := a + 1) (fun k hk => by rw [show a + 1 + k = a + (k + 1) by omega]; exact h _ (by omega))
    exact ⟨b :: bs, readBytes_succ m a n hb hbs⟩

/-- `MemRead` after a load gives the loaded bytes. -/
theorem readBytes_load {m : Memory} (hm : Memory.wf m) (a k n : Nat) (bs : List Byte)
    (hfit : a + bs.length ≤ 2 ^ 64) (h : k + n ≤ bs.length) :
    Memory.readBytes (Memory.load m a bs) (a + k) n = some ((bs.drop k).take n) := by
  induction n generalizing k with
  | zero => simp [Memory.readBytes]
  | succ n ih =>
    have h1 := read_load hm a k bs hfit (by omega)
    have h2 := ih (k + 1) (by omega)
    rw [readBytes_succ _ _ _ h1 (show Memory.readBytes _ (a + k + 1) n = _ from h2),
      List.drop_eq_getElem_cons (show k < bs.length by omega), List.take_succ_cons]

theorem wf_nil : Memory.wf [] := ⟨by simp, by simp⟩

end Memory

/-! ### Fetch (R33, R35, R96) -/

theorem inText_iff (s : State) :
    s.inText = true ↔ s.progBase.toNat ≤ s.pc.toNat ∧ s.pc.toNat + 4 ≤ s.textEnd := by
  simp [State.inText]

/-- A fetch that finds its four bytes. -/
theorem fetchBytes_ok {s : State} {bytes : List Byte} (ha : s.pc.toNat % 4 = 0) (ht : s.inText = true)
    (hb : s.mem.readBytes s.pc.toNat 4 = some bytes) : fetchBytes s = .ok bytes := by
  have := (inText_iff s).mp ht
  simp only [fetchBytes, ha, ht, hb]
  rw [if_neg (by simp), if_neg (by omega), if_pos trivial]

/-- Inversion of fetch: where it gives bytes, the pc is aligned and in the text and they are the four bytes there. -/
theorem fetchBytes_eq_ok {s : State} {bytes : List Byte} (h : fetchBytes s = .ok bytes) :
    s.pc.toNat % 4 = 0 ∧ s.inText = true ∧ s.mem.readBytes s.pc.toNat 4 = some bytes := by
  unfold fetchBytes at h
  split at h
  · cases h
  · next ha =>
    split at h
    · cases h
    · split at h
      · next ht =>
        split at h
        · next bs hb => cases h; exact ⟨by omega, ht, hb⟩
        · cases h
      · cases h

/-- A fetch at the end of the text. -/
theorem fetchBytes_ended {s : State} (ha : s.pc.toNat % 4 = 0) (he : s.pc.toNat = s.textEnd) :
    fetchBytes s = .error (.fault .endOfRun) := by
  rw [fetchBytes, if_neg (by omega), if_pos he]

/-- A fetch at a misaligned pc. -/
theorem fetchBytes_misaligned {s : State} (ha : s.pc.toNat % 4 ≠ 0) :
    fetchBytes s = .error (.refused .pcMisaligned) := by
  rw [fetchBytes, if_pos ha]

/-- A fetch outside the text. -/
theorem fetchBytes_outside {s : State} (ha : s.pc.toNat % 4 = 0) (he : s.pc.toNat ≠ s.textEnd)
    (ht : s.inText = false) : fetchBytes s = .error (.refused .fetchOutsideProgram) := by
  rw [fetchBytes, if_neg (by omega), if_neg he, if_neg (by simp [ht])]

/-- A fetched instruction is the decoding of the four bytes at the pc. -/
theorem fetchInstr_of_bytes {s : State} {bytes rest : List Byte} {i : Instr} (hf : fetchBytes s = .ok bytes)
    (hd : decodeBytes s.config bytes = .ok (i, rest)) : fetchInstr s = .ok i := by
  simp only [fetchInstr, hf, hd]

/-- Inversion of the fetch of an instruction. -/
theorem fetchInstr_eq_ok {s : State} {i : Instr} (h : fetchInstr s = .ok i) :
    ∃ bytes rest, fetchBytes s = .ok bytes ∧ decodeBytes s.config bytes = .ok (i, rest) := by
  unfold fetchInstr at h
  split at h
  · cases h
  · next bytes hf =>
    split at h
    · next j rest hd => cases h; exact ⟨bytes, rest, hf, hd⟩
    · cases h
    · cases h

/-- Fetch looks at the pc, the program map, memory and the configuration, and at nothing else. -/
theorem fetchInstr_congr {s t : State} (hpc : s.pc = t.pc) (hb : s.progBase = t.progBase)
    (hl : s.progLen = t.progLen) (hm : s.mem = t.mem) (hc : s.config = t.config) : fetchInstr s = fetchInstr t := by
  cases s
  cases t
  dsimp only at hpc hb hl hm hc
  subst hpc hb hl hm hc
  rfl

end Sys2Proof.Machine
end

