-- ==== Sys2Proof/Laws/Exec.lean ====
section
/-! SUPPORT. What executing an instruction can do, said once for all five. -/

namespace Sys2Proof.Machine

open Sys2Proof

/-- The results an instruction computes from the three registers it names (R19, R53). -/
def resultsIn (i : Instr) (s : State) : Results :=
  resultsOf i (s.reg i.ra) (s.reg i.rb) (s.reg i.rc)

/-- Every instruction is: compute the results, record CR0 if asked to, complete. -/
theorem exec_eq_complete (i : Instr) (s : State) :
    exec i s = complete i.rt i.rc (resultsIn i s) (s.recordCr0 i.records (resultsIn i s)) := by
  cases i <;> rfl

/-- The one state an instruction can lead to. -/
def execTarget (i : Instr) (s : State) : State :=
  ((s.recordCr0 i.records (resultsIn i s)).writeResults i.rt i.rc (resultsIn i s)).advancePc

theorem exec_next (i : Instr) (s : State) (h : s.pc.toNat + 4 < 2 ^ 64) : exec i s = .next (execTarget i s) := by
  rw [exec_eq_complete, complete_next _ _ _ _ (by simpa using h)]
  rfl

theorem exec_refused (i : Instr) (s : State) (h : 2 ^ 64 ≤ s.pc.toNat + 4) : exec i s = .refused .pcWrap := by
  rw [exec_eq_complete, complete_refused _ _ _ _ (by simpa using h)]

/-- Inversion of exec: a next state is the target, and the pc was below the top. -/
theorem exec_eq_next {i : Instr} {s t : State} (h : exec i s = .next t) :
    s.pc.toNat + 4 < 2 ^ 64 ∧ t = execTarget i s := by
  rw [exec_eq_complete] at h
  obtain ⟨hp, ht⟩ := complete_eq_next h
  exact ⟨by simpa using hp, ht⟩

@[simp] theorem execTarget_pc (i : Instr) (s : State) : (execTarget i s).pc = s.pc + 4 := by simp [execTarget]

@[simp] theorem execTarget_xer (i : Instr) (s : State) : (execTarget i s).xer = s.xer := by simp [execTarget]

@[simp] theorem execTarget_mem (i : Instr) (s : State) : (execTarget i s).mem = s.mem := by simp [execTarget]

@[simp] theorem execTarget_progBase (i : Instr) (s : State) : (execTarget i s).progBase = s.progBase := by
  simp [execTarget]

@[simp] theorem execTarget_progLen (i : Instr) (s : State) : (execTarget i s).progLen = s.progLen := by
  simp [execTarget]

@[simp] theorem execTarget_config (i : Instr) (s : State) : (execTarget i s).config = s.config := by
  simp [execTarget]

theorem execTarget_cr (i : Instr) (s : State) :
    (execTarget i s).cr = if i.records then cr0Of (resultsIn i s) ++ s.cr.extractLsb' 0 28 else s.cr := by
  simp [execTarget]

theorem execTarget_draws (i : Instr) (s : State) :
    (execTarget i s).draws = if i.rt = i.rc then s.draws + 1 else s.draws := by
  simp [execTarget]

theorem execTarget_reg_rt (i : Instr) (s : State) (h : i.rt ≠ i.rc) :
    (execTarget i s).reg i.rt = (resultsIn i s).rt := by
  simp [execTarget, State.writeResults_reg_rt, h]

theorem execTarget_reg_rc (i : Instr) (s : State) (h : i.rt ≠ i.rc) :
    (execTarget i s).reg i.rc = (resultsIn i s).rs := by
  simp [execTarget, State.writeResults_reg_rc, h]

theorem execTarget_reg_draw (i : Instr) (s : State) (h : i.rt = i.rc) :
    (execTarget i s).reg i.rc = (resultsIn i s).rt ∨ (execTarget i s).reg i.rc = (resultsIn i s).rs := by
  simp only [execTarget, State.advancePc_reg, h]
  exact State.writeResults_reg_draw _ i.rc _

theorem execTarget_reg_other (i : Instr) (s : State) (r : Reg) (ht : r ≠ i.rt) (hc : r ≠ i.rc) :
    (execTarget i s).reg r = s.reg r := by
  simp [execTarget, State.writeResults_reg_other _ _ _ _ _ ht hc]

theorem execTarget_frame (i : Instr) (s : State) : Frame i.rt i.rc s (execTarget i s) where
  regs r ht hc := execTarget_reg_other i s r ht hc
  xer := execTarget_xer i s
  mem a := by rw [execTarget_mem]
  progBase := execTarget_progBase i s
  progLen := execTarget_progLen i s
  config := execTarget_config i s

/-! ### The step -/

/-- Inversion of step: a next state is an instruction's, fetched and decoded at the pc. -/
theorem step_eq_next {s t : State} (h : step s = .next t) : ∃ i, fetchInstr s = .ok i ∧ exec i s = .next t := by
  unfold step at h
  split at h
  · next i hi => exact ⟨i, hi, h⟩
  · cases h
  · cases h

theorem step_of_fetch {s : State} {i : Instr} (h : fetchInstr s = .ok i) : step s = exec i s := by
  simp only [step, h]

theorem step_of_stop_fault {s : State} {f : Fault} (h : fetchInstr s = .error (.fault f)) : step s = .fault f := by
  simp only [step, h]

theorem step_of_stop_refused {s : State} {r : Refusal} (h : fetchInstr s = .error (.refused r)) :
    step s = .refused r := by
  simp only [step, h]

/-! ### The condition register (R24 to R26) -/

/-- Putting a new CR0 in front of the other seven fields leaves those fields as they were. -/
theorem crField_append_ne (hi : BitVec 4) (cr : BitVec 32) (k : Fin 8) (hk : k ≠ 0) :
    (hi ++ cr.extractLsb' 0 28 : BitVec 32).extractLsb' (28 - 4 * k.val) 4 = cr.extractLsb' (28 - 4 * k.val) 4 := by
  have : 0 < k.val := by rw [Nat.pos_iff_ne_zero]; intro h; exact hk (Fin.ext h)
  refine BitVec.eq_of_getLsbD_eq fun j hj => ?_
  rw [BitVec.getLsbD_extractLsb', BitVec.getLsbD_extractLsb']
  erw [BitVec.getLsbD_append]
  have h2 : 28 - 4 * k.val + j < 28 := by omega
  simp [h2]

/-- The field put in front is CR0. -/
theorem crField_append_zero (hi : BitVec 4) (cr : BitVec 32) :
    (hi ++ cr.extractLsb' 0 28 : BitVec 32).extractLsb' 28 4 = hi := by
  refine BitVec.eq_of_getLsbD_eq fun j hj => ?_
  rw [BitVec.getLsbD_extractLsb']
  erw [BitVec.getLsbD_append]
  rw [if_neg (by omega)]
  simp [hj]

theorem execTarget_crField_ne (i : Instr) (s : State) (k : Fin 8) (hk : k ≠ 0) :
    (execTarget i s).crField k = s.crField k := by
  rw [State.crField, execTarget_cr]
  split
  · exact crField_append_ne _ _ _ hk
  · rfl

theorem execTarget_crField_zero (i : Instr) (s : State) (h : i.records = true) :
    (execTarget i s).crField 0 = cr0Of (resultsIn i s) := by
  rw [State.crField, execTarget_cr, if_pos h]
  exact crField_append_zero _ _

theorem execTarget_cr_of_not_records (i : Instr) (s : State) (h : i.records = false) : (execTarget i s).cr = s.cr := by
  rw [execTarget_cr, h]
  simp

/-- The overflow flag is the least significant bit of CR0 (R25). -/
theorem execTarget_overflow (i : Instr) (s : State) (h : i.records = true) :
    (execTarget i s).cr.getLsbD 28 = decide ((resultsIn i s).rs ≠ 0) := by
  rw [execTarget_cr, if_pos h]
  erw [BitVec.getLsbD_append]
  simp only [cr0Of]
  erw [BitVec.getLsbD_append]
  simp [BitVec.getElem_ofBool]

/-- CR0 as a number, flag by flag (R25). -/
theorem cr0Of_toNat (v : Results) :
    (cr0Of v).toNat = (if v.rt.toInt < 0 then 8 else 0) + (if 0 < v.rt.toInt then 4 else 0) +
      (if v.rt = 0 then 2 else 0) + (if v.rs ≠ 0 then 1 else 0) := by
  unfold cr0Of
  erw [append_toNat, append_toNat, append_toNat]
  rw [BitVec.toNat_ofBool, BitVec.toNat_ofBool, BitVec.toNat_ofBool, BitVec.toNat_ofBool]
  have e : ∀ (p : Prop) [Decidable p], (decide p).toNat = if p then 1 else 0 := by
    intro p _
    by_cases h : p <;> simp [h]
  simp only [e]
  split <;> split <;> split <;> split <;> simp_all

/-! ### Runs and chains -/

theorem run_zero (s : State) : Sys2Proof.core.run 0 s = .next s := rfl

theorem run_succ_next {n : Nat} {s t : State} (h : step s = .next t) :
    Sys2Proof.core.run (n + 1) s = Sys2Proof.core.run n t := by
  have gen : ∀ (M : Host.Core) (n : Nat) (s t : M.State), M.step s = .next t → M.run (n + 1) s = M.run n t := by
    intro M n s t h
    simp only [Host.Core.run, h]
  exact gen Sys2Proof.core n s t h

/-- The first instruction of a sequence, then the others. -/
theorem execAll_cons {i : Instr} {is : List Instr} {s : State} (h : s.pc.toNat + 4 < 2 ^ 64) :
    execAll (i :: is) s = execAll is (execTarget i s) := by
  simp only [execAll, exec_next i s h]

/-- The register conditions of a chain, link by link. -/
theorem chainOk_cons {rb rc : Reg} {l : Reg × Reg} {rest : List (Reg × Reg)} (h : chainOk rb rc (l :: rest) = true) :
    l.1 ≠ rc ∧ (∀ m ∈ rest, l.1 ≠ m.1 ∧ l.1 ≠ m.2 ∧ rc ≠ m.2 ∧ l.1 ≠ rb ∧ rc ≠ rb) ∧ chainOk rb rc rest = true := by
  simp only [chainOk, Bool.and_eq_true, decide_eq_true_eq, List.all_eq_true] at h
  exact ⟨h.1.1, h.1.2, h.2⟩

theorem divChainOk_cons {rb : Reg} {l : Reg × Reg} {rest : List (Reg × Reg)} (h : divChainOk rb (l :: rest) = true) :
    l.1 ≠ l.2 ∧ (∀ m ∈ rest, l.1 ≠ m.1 ∧ l.1 ≠ m.2 ∧ l.2 ≠ m.2 ∧ l.1 ≠ rb ∧ l.2 ≠ rb) ∧
      divChainOk rb rest = true := by
  simp only [divChainOk, Bool.and_eq_true, decide_eq_true_eq, List.all_eq_true] at h
  exact ⟨h.1.1, h.1.2, h.2⟩

/-- The part already read counts above the limbs still to come. -/
theorem limbsBelow_acc (acc : Nat) (vs : List Word) :
    limbsBelow acc vs = acc * 2 ^ (64 * vs.length) + limbsBelow 0 vs := by
  induction vs generalizing acc with
  | nil => simp [limbsBelow]
  | cons v vs ih =>
    simp only [limbsBelow, List.length_cons]
    rw [ih, ih (0 * 2 ^ 64 + v.toNat), show 64 * (vs.length + 1) = 64 + 64 * vs.length by ring, pow_add]
    ring

end Sys2Proof.Machine
end

