-- ==== Sys2Proof/Laws/PerInstr.lean ====
section
/-! SUPPORT. A statement about each instruction as syntax: its word holds its primary opcode and its four registers where
the decoder looks for them, whatever the extended opcodes (R46, R47, R51). -/

namespace Sys2Proof.Laws.EncodeFields

open Sys2Proof

/-- The word of `i` holds PO = 4 and the fields of `i`. -/
def Statement (i : Instr) : Prop :=
  ∀ x : XoParams, fieldPO (encode x i) = primaryOpcode ∧ fieldRT (encode x i) = i.rt ∧
    fieldRA (encode x i) = i.ra ∧ fieldRB (encode x i) = i.rb ∧ fieldRC (encode x i) = i.rc

theorem maddedu (rt ra rb rc : Reg) : Statement (.maddedu rt ra rb rc) := by
  intro x; simp [encode, Instr.rt, Instr.ra, Instr.rb, Instr.rc]

theorem maddedus (rt ra rb rc : Reg) : Statement (.maddedus rt ra rb rc) := by
  intro x; simp [encode, Instr.rt, Instr.ra, Instr.rb, Instr.rc]

theorem divmod2du (rt ra rb rc : Reg) : Statement (.divmod2du rt ra rb rc) := by
  intro x; simp [encode, Instr.rt, Instr.ra, Instr.rb, Instr.rc]

theorem dsld (rt ra rb rc : Reg) (record : Bool) : Statement (.dsld rt ra rb rc record) := by
  intro x; simp [encode, Instr.rt, Instr.ra, Instr.rb, Instr.rc]

theorem dsrd (rt ra rb rc : Reg) (record : Bool) : Statement (.dsrd rt ra rb rc record) := by
  intro x; simp [encode, Instr.rt, Instr.ra, Instr.rb, Instr.rc]

end Sys2Proof.Laws.EncodeFields
end

