-- ==== Sys2Proof/Laws/Results.lean ====
section
/-! SUPPORT. What each result function computes, said once: exact values and bits. -/

namespace Sys2Proof.Machine

open Sys2Proof

/-! ### Multiply-add and divide (R61, R64, R67) -/

/-- The low half as an integer (R9). -/
theorem lowHalf_toNat (q : Quad) : (lowHalf q).toNat = q.toNat % 2 ^ 64 := by
  simp [lowHalf, BitVec.extractLsb'_toNat]

/-- The high half as an integer (R9). -/
theorem highHalf_toNat (q : Quad) : (highHalf q).toNat = q.toNat / 2 ^ 64 := by
  have h := q.isLt
  rw [highHalf, BitVec.extractLsb'_toNat, Nat.shiftRight_eq_div_pow]
  exact Nat.mod_eq_of_lt (by omega)

/-- The two halves make the whole, read as unsigned. -/
theorem halves_toNat (q : Quad) : (highHalf q).toNat * 2 ^ 64 + (lowHalf q).toNat = q.toNat := by
  rw [lowHalf_toNat, highHalf_toNat]; omega

/-- A non-negative integer that fits is its own 128-bit vector. -/
theorem bv128_toNat_of_nonneg (n : Nat) (h : n < 2 ^ 128) : (bv128 n).toNat = n := by
  rw [bv128, BitVec.toNat_ofInt]; omega

/-- The sum of `maddedu` fits in 128 bits. -/
theorem product_add_le (a b c : Word) : a.toNat * b.toNat + c.toNat ≤ 2 ^ 128 - 2 ^ 64 := by
  have ha : a.toNat ≤ 2 ^ 64 - 1 := by omega
  have hb : b.toNat ≤ 2 ^ 64 - 1 := by omega
  have := Nat.mul_le_mul ha hb
  omega

/-- `maddedu`: the pair (RS, RT) is the exact sum (R61). -/
theorem maddeduResults_value (a b c : Word) :
    (maddeduResults a b c).rs.toNat * 2 ^ 64 + (maddeduResults a b c).rt.toNat = a.toNat * b.toNat + c.toNat := by
  have h := product_add_le a b c
  have hb := bv128_toNat_of_nonneg (a.toNat * b.toNat + c.toNat) (by omega)
  simp only [maddeduResults]
  rw [halves_toNat]
  exact_mod_cast hb

/-- The signed reading: the unsigned one less 2^64 if the top bit is set (R10). -/
theorem word_toInt (v : Word) : v.toInt = v.toNat - 2 ^ 64 * (v.getLsbD 63).toNat := by
  rw [BitVec.toInt_eq_msb_cond]
  have : v.msb = v.getLsbD 63 := by simp [BitVec.msb_eq_getLsbD_last]
  rw [this]; cases v.getLsbD 63 <;> simp

/-- The two halves make the whole, read as signed: only the high half carries the sign. -/
theorem halves_toInt (q : Quad) : (highHalf q).toInt * 2 ^ 64 + (lowHalf q).toNat = q.toInt := by
  have h := halves_toNat q
  have hl := (lowHalf q).isLt
  have hh := (highHalf q).isLt
  have hq := q.isLt
  rw [BitVec.toInt_eq_toNat_cond, BitVec.toInt_eq_toNat_cond]
  split <;> split <;> omega

/-- The sum of `maddedus` fits in signed 128 bits. -/
theorem signed_product_bounds (a b c : Word) :
    -2 ^ 127 ≤ a.toNat * b.toInt + c.toInt ∧ a.toNat * b.toInt + c.toInt ≤ 2 ^ 127 - 2 ^ 64 := by
  have ha : (a.toNat : Int) ≤ 2 ^ 64 - 1 := by omega
  have ha0 : (0 : Int) ≤ a.toNat := by omega
  have hb := BitVec.le_toInt b
  have hb' := BitVec.toInt_lt (x := b)
  have hc := BitVec.le_toInt c
  have hc' := BitVec.toInt_lt (x := c)
  norm_num at hb hb' hc hc' ⊢
  norm_num at ha
  constructor <;> nlinarith

/-- A signed integer that fits is its own 128-bit vector. -/
theorem bv128_toInt (n : Int) (h : -2 ^ 127 ≤ n) (h' : n < 2 ^ 127) : (bv128 n).toInt = n := by
  rw [bv128, BitVec.toInt_ofInt, Int.bmod_eq_of_le]
  · norm_num; norm_num at h; omega
  · norm_num; norm_num at h'; omega

/-- `maddedus`: the pair (RS, RT) is the exact signed sum (R64). -/
theorem maddedusResults_value (a b c : Word) :
    (maddedusResults a b c).rs.toInt * 2 ^ 64 + (maddedusResults a b c).rt.toNat = a.toNat * b.toInt + c.toInt := by
  have ⟨h, h'⟩ := signed_product_bounds a b c
  simp only [maddedusResults]
  rw [halves_toInt, bv128_toInt _ h (by omega)]

/-- `divmod2du` without error: the two results lose nothing (R67). -/
theorem divmod2duResults_quotient (a b c : Word) (h : a.toNat < b.toNat) :
    (divmod2duResults a b c).rt.toNat = (a.toNat * 2 ^ 64 + c.toNat) / b.toNat ∧
    (divmod2duResults a b c).rs.toNat = (a.toNat * 2 ^ 64 + c.toNat) % b.toNat := by
  have hq : (a.toNat * 2 ^ 64 + c.toNat) / b.toNat < 2 ^ 64 := by
    rw [Nat.div_lt_iff_lt_mul (by omega)]
    have := c.isLt
    nlinarith
  have hr := Nat.mod_lt (a.toNat * 2 ^ 64 + c.toNat) (show 0 < b.toNat by omega)
  have hb := b.isLt
  simp only [divmod2duResults, if_pos h, BitVec.toNat_ofNat]
  exact ⟨Nat.mod_eq_of_lt hq, Nat.mod_eq_of_lt (by omega)⟩

/-- `divmod2du` in the error case (R67). -/
theorem divmod2duResults_error (a b c : Word) (h : b.toNat ≤ a.toNat) :
    divmod2duResults a b c = { rt := BitVec.allOnes 64, rs := 0 } := by
  simp only [divmod2duResults, if_neg (Nat.not_lt.mpr h)]

/-! ### The shifts, bit by bit (R71, R72, R75) -/

/-- The count is RB modulo 64 (R71). -/
theorem shiftCount_eq (b : Word) : shiftCount b = b.toNat % 64 := by
  simp [shiftCount, BitVec.extractLsb'_toNat]

/-- ROTL64, bit by bit (R13). -/
theorem rotl64_getLsbD (v : Word) (k j : Nat) (hj : j < 64) :
    (rotl64 v k).getLsbD j = if j < k % 64 then v.getLsbD (64 - k % 64 + j) else v.getLsbD (j - k % 64) := by
  have hk : k % 64 < 64 := Nat.mod_lt _ (by omega)
  simp only [rotl64, BitVec.getLsbD_or, BitVec.getLsbD_shiftLeft, BitVec.getLsbD_ushiftRight, hj]
  by_cases h : j < k % 64
  · simp [h]
  · have : v.getLsbD (64 - k % 64 + j) = false := BitVec.getLsbD_of_ge _ _ (by omega)
    simp [h, this]

/-- MASK, bit by bit, in LSB0 positions (R14). -/
theorem mask64_getLsbD (a b j : Nat) (hj : j < 64) :
    (mask64 a b).getLsbD j = decide (63 - b ≤ j ∧ a + j ≤ 63) := by
  have hs : j - (63 - b) < 64 := by omega
  rw [mask64, BitVec.getLsbD_and, BitVec.getLsbD_shiftLeft, BitVec.getLsbD_ushiftRight, BitVec.getLsbD_allOnes,
    BitVec.getLsbD_allOnes, Bool.eq_iff_iff]
  simp only [Bool.and_eq_true, decide_eq_true_eq, Bool.not_eq_true', decide_eq_false_iff_not]
  omega

/-- The mask of `dsld`, `MASK(0, 63-n)`: ones in all but the `n` low-order bits (R72). -/
theorem dsldMask_getLsbD (n j : Nat) (hn : n < 64) (hj : j < 64) :
    (mask64 0 (63 - n)).getLsbD j = !decide (j < n) := by
  rw [mask64_getLsbD _ _ _ hj, Bool.eq_iff_iff]
  simp only [decide_eq_true_eq, Bool.not_eq_true', decide_eq_false_iff_not]
  omega

/-- The mask of `dsrd`, `MASK(n, 63)`: ones in all but the `n` high-order bits (R75). -/
theorem dsrdMask_getLsbD (n j : Nat) (hj : j < 64) : (mask64 n 63).getLsbD j = decide (n + j < 64) := by
  rw [mask64_getLsbD _ _ _ hj, Bool.eq_iff_iff]
  simp only [decide_eq_true_eq]
  omega

/-- RT of `dsld`: the low `n` bits are those of `c`, the others those of `a` moved up. -/
theorem dsldResults_rt_getLsbD (a b c : Word) (j : Nat) (hj : j < 64) :
    (dsldResults a b c).rt.getLsbD j =
      if j < b.toNat % 64 then c.getLsbD j else a.getLsbD (j - b.toNat % 64) := by
  have hn : b.toNat % 64 < 64 := Nat.mod_lt _ (by omega)
  simp only [dsldResults, shiftCount_eq, BitVec.getLsbD_or, BitVec.getLsbD_and, BitVec.getLsbD_not,
    rotl64_getLsbD _ _ _ hj, dsldMask_getLsbD _ _ hn hj, Nat.mod_mod]
  by_cases h : j < b.toNat % 64 <;> simp [h, hj]

/-- RS of `dsld`: the top `n` bits of `a`, right-justified. -/
theorem dsldResults_rs_getLsbD (a b c : Word) (j : Nat) (hj : j < 64) :
    (dsldResults a b c).rs.getLsbD j =
      (decide (j < b.toNat % 64) && a.getLsbD (64 - b.toNat % 64 + j)) := by
  have hn : b.toNat % 64 < 64 := Nat.mod_lt _ (by omega)
  simp only [dsldResults, shiftCount_eq, BitVec.getLsbD_and, BitVec.getLsbD_not,
    rotl64_getLsbD _ _ _ hj, dsldMask_getLsbD _ _ hn hj, Nat.mod_mod]
  by_cases h : j < b.toNat % 64 <;> simp [h, hj]

/-- The rotation of `dsrd`, a rotation right by `n` (R75). -/
theorem rotr64_getLsbD (v : Word) (n j : Nat) (hn : n < 64) (hj : j < 64) :
    (rotl64 v (64 - n)).getLsbD j = if n + j < 64 then v.getLsbD (n + j) else v.getLsbD (n + j - 64) := by
  rw [rotl64_getLsbD _ _ _ hj]
  by_cases hz : n = 0
  · subst hz; simp [hj]
  · rw [Nat.mod_eq_of_lt (show 64 - n < 64 by omega)]
    by_cases h : n + j < 64
    · rw [if_pos (by omega), if_pos h]; congr 1; omega
    · rw [if_neg (by omega), if_neg h]; congr 1; omega

/-- RT of `dsrd`: the top `n` bits are those of `c`, the others those of `a` moved down. -/
theorem dsrdResults_rt_getLsbD (a b c : Word) (j : Nat) (hj : j < 64) :
    (dsrdResults a b c).rt.getLsbD j =
      if b.toNat % 64 + j < 64 then a.getLsbD (b.toNat % 64 + j) else c.getLsbD j := by
  have hn : b.toNat % 64 < 64 := Nat.mod_lt _ (by omega)
  simp only [dsrdResults, shiftCount_eq, BitVec.getLsbD_or, BitVec.getLsbD_and, BitVec.getLsbD_not,
    rotr64_getLsbD _ _ _ hn hj, dsrdMask_getLsbD _ _ hj]
  by_cases h : b.toNat % 64 + j < 64 <;> simp [h, hj]

/-- RS of `dsrd`: the low `n` bits of `a`, left-justified. -/
theorem dsrdResults_rs_getLsbD (a b c : Word) (j : Nat) (hj : j < 64) :
    (dsrdResults a b c).rs.getLsbD j =
      (!decide (b.toNat % 64 + j < 64) && a.getLsbD (b.toNat % 64 + j - 64)) := by
  have hn : b.toNat % 64 < 64 := Nat.mod_lt _ (by omega)
  simp only [dsrdResults, shiftCount_eq, BitVec.getLsbD_and, BitVec.getLsbD_not,
    rotr64_getLsbD _ _ _ hn hj, dsrdMask_getLsbD _ _ hj]
  by_cases h : b.toNat % 64 + j < 64 <;> simp [h, hj]

/-! ### The shifts in the integer form of R72 and R75 -/

/-- Two words with the same 64 bits are equal. -/
theorem word_eq_of_getLsbD {v w : Word} (h : ∀ j, j < 64 → v.getLsbD j = w.getLsbD j) : v = w :=
  BitVec.eq_of_getLsbD_eq h

theorem dsldResults_rs_toNat (a b c : Word) :
    (dsldResults a b c).rs.toNat = a.toNat / 2 ^ (64 - b.toNat % 64) := by
  have : (dsldResults a b c).rs = a >>> (64 - b.toNat % 64) := by
    refine word_eq_of_getLsbD fun j hj => ?_
    rw [dsldResults_rs_getLsbD a b c j hj, BitVec.getLsbD_ushiftRight]
    by_cases h : j < b.toNat % 64
    · simp [h]
    · rw [BitVec.getLsbD_of_ge a _ (by omega)]; simp
  rw [this, BitVec.toNat_ushiftRight, Nat.shiftRight_eq_div_pow]

theorem dsrdResults_rs_toNat (a b c : Word) :
    (dsrdResults a b c).rs.toNat = a.toNat * 2 ^ (64 - b.toNat % 64) % 2 ^ 64 := by
  have : (dsrdResults a b c).rs = a <<< (64 - b.toNat % 64) := by
    refine word_eq_of_getLsbD fun j hj => ?_
    have hn : b.toNat % 64 < 64 := Nat.mod_lt _ (by omega)
    rw [dsrdResults_rs_getLsbD a b c j hj, BitVec.getLsbD_shiftLeft]
    by_cases h : b.toNat % 64 + j < 64
    · simp [h, show j < 64 - b.toNat % 64 by omega]
    · simp [h, hj, show ¬ j < 64 - b.toNat % 64 by omega]
      congr 1; omega
  rw [this, BitVec.toNat_shiftLeft, Nat.shiftLeft_eq]

/-- Two words without a common one bit: OR is addition (R73). -/
theorem or_toNat_of_and_zero {v w : Word} (h : v &&& w = 0) : (v ||| w).toNat = v.toNat + w.toNat := by
  rw [← BitVec.add_eq_or_of_and_eq_zero v w h, BitVec.toNat_add_of_and_eq_zero h]

theorem dsldResults_rt_toNat (a b c : Word) :
    (dsldResults a b c).rt.toNat =
      a.toNat * 2 ^ (b.toNat % 64) % 2 ^ 64 + c.toNat % 2 ^ (b.toNat % 64) := by
  have hn : b.toNat % 64 < 64 := Nat.mod_lt _ (by omega)
  have hc : (c &&& ~~~(mask64 0 (63 - b.toNat % 64))).toNat = c.toNat % 2 ^ (b.toNat % 64) := by
    refine Nat.eq_of_testBit_eq fun j => ?_
    rw [Nat.testBit_mod_two_pow]
    change BitVec.getLsbD _ j = _
    by_cases hj : j < 64
    · rw [BitVec.getLsbD_and, BitVec.getLsbD_not, dsldMask_getLsbD _ _ hn hj]
      by_cases h : j < b.toNat % 64 <;> simp [h, hj]
      rfl
    · rw [BitVec.getLsbD_of_ge _ _ (by omega)]
      simp; omega
  have ha : rotl64 a (b.toNat % 64) &&& mask64 0 (63 - b.toNat % 64) = a <<< (b.toNat % 64) := by
    refine word_eq_of_getLsbD fun j hj => ?_
    rw [BitVec.getLsbD_and, rotl64_getLsbD _ _ _ hj, dsldMask_getLsbD _ _ hn hj, BitVec.getLsbD_shiftLeft, Nat.mod_mod]
    by_cases h : j < b.toNat % 64 <;> simp [h, hj]
  rw [← hc, ← Nat.shiftLeft_eq, ← BitVec.toNat_shiftLeft, ← ha]
  simp only [dsldResults, shiftCount_eq]
  refine or_toNat_of_and_zero (word_eq_of_getLsbD fun j hj => ?_)
  simp only [BitVec.getLsbD_and, BitVec.getLsbD_not, hj]
  cases (mask64 0 (63 - b.toNat % 64)).getLsbD j <;> simp

theorem dsrdResults_rt_toNat (a b c : Word) :
    (dsrdResults a b c).rt.toNat =
      a.toNat / 2 ^ (b.toNat % 64) + (c.toNat - c.toNat % 2 ^ (64 - b.toNat % 64)) := by
  have hn : b.toNat % 64 < 64 := Nat.mod_lt _ (by omega)
  have hc : (c &&& ~~~(mask64 (b.toNat % 64) 63)) = (c >>> (64 - b.toNat % 64)) <<< (64 - b.toNat % 64) := by
    refine word_eq_of_getLsbD fun j hj => ?_
    rw [BitVec.getLsbD_and, BitVec.getLsbD_not, dsrdMask_getLsbD _ _ hj, BitVec.getLsbD_shiftLeft,
      BitVec.getLsbD_ushiftRight]
    by_cases h : b.toNat % 64 + j < 64
    · simp [h, show j < 64 - b.toNat % 64 by omega]
    · simp [h, hj, show ¬ j < 64 - b.toNat % 64 by omega]
      congr 1; omega
  have hcn : (c &&& ~~~(mask64 (b.toNat % 64) 63)).toNat = c.toNat - c.toNat % 2 ^ (64 - b.toNat % 64) := by
    rw [hc, BitVec.toNat_shiftLeft, BitVec.toNat_ushiftRight, Nat.shiftRight_eq_div_pow, Nat.shiftLeft_eq]
    have h1 := Nat.div_add_mod c.toNat (2 ^ (64 - b.toNat % 64))
    rw [Nat.mul_comm] at h1
    have h2 := c.isLt
    rw [Nat.mod_eq_of_lt (by omega)]
    omega
  have ha : rotl64 a (64 - b.toNat % 64) &&& mask64 (b.toNat % 64) 63 = a >>> (b.toNat % 64) := by
    refine word_eq_of_getLsbD fun j hj => ?_
    rw [BitVec.getLsbD_and, rotr64_getLsbD _ _ _ hn hj, dsrdMask_getLsbD _ _ hj, BitVec.getLsbD_ushiftRight]
    by_cases h : b.toNat % 64 + j < 64
    · simp [h]
    · rw [BitVec.getLsbD_of_ge a _ (by omega)]; simp [h]
  rw [← hcn, ← Nat.shiftRight_eq_div_pow, ← BitVec.toNat_ushiftRight, ← ha]
  simp only [dsrdResults, shiftCount_eq]
  refine or_toNat_of_and_zero (word_eq_of_getLsbD fun j hj => ?_)
  simp only [BitVec.getLsbD_and, BitVec.getLsbD_not, hj]
  cases (mask64 (b.toNat % 64) 63).getLsbD j <;> simp

/-- A word is nonzero exactly when one of its bits is one. -/
theorem word_ne_zero_iff (v : Word) : v ≠ 0 ↔ ∃ j, j < 64 ∧ v.getLsbD j = true := by
  constructor
  · intro h
    by_contra hc
    push Not at hc
    exact h (word_eq_of_getLsbD fun j hj => by simpa using hc j hj)
  · rintro ⟨j, _, h⟩ rfl
    simp at h

/-- The bits of a reversed word. -/
theorem word_reverse_getLsbD (v : Word) (j : Nat) (hj : j < 64) : v.reverse.getLsbD j = v.getLsbD (63 - j) := by
  rw [BitVec.getLsbD_reverse, BitVec.getMsbD]
  simp [hj]

/-- The shifts read the low six bits of the count only (R71). -/
theorem shiftResults_congr (a b b' c : Word) (h : b'.toNat % 64 = b.toNat % 64) :
    dsldResults a b' c = dsldResults a b c ∧ dsrdResults a b' c = dsrdResults a b c := by
  simp only [dsldResults, dsrdResults, shiftCount_eq, h, and_self]

/-- The two powers of a shift count make 2^64. -/
theorem pow_count_mul (b : Word) : 2 ^ (b.toNat % 64) * 2 ^ (64 - b.toNat % 64) = 2 ^ 64 := by
  rw [← pow_add]
  congr 1
  have : b.toNat % 64 < 64 := Nat.mod_lt _ (by omega)
  omega

end Sys2Proof.Machine
end

