-- ==== Sys2Proof/Tests/Slice0.lean ====
section
/-! SUPPORT. The model's own tests. Expected values are those of spec/95_test_vectors.md, by part and row, which the spec
derived from its rules by two independent ways. The last section shows, for each obligation with hypotheses, a
concrete input that meets them. -/

namespace Sys2Proof.Tests

open Sys2Proof Sys2Proof.Machine

/-! ### WellFormed: what the checks refuse -/

/-- XO_DSLD = 25 takes the six-bit points 50 and 51, and 50 is XO_MADDEDU (R50). -/
theorem test_wellFormed_refuses_clash_across_forms :
    { XoParams.recommended with dsld := 25 }.wellFormed = false := by decide

/-- Two VA-Form instructions with one extended opcode. -/
theorem test_wellFormed_refuses_clash_in_va_form :
    { XoParams.recommended with maddedus := 50 }.wellFormed = false := by decide

/-- Two VA2-Form instructions with one extended opcode; a configuration takes its check from the numerals. -/
theorem test_wellFormed_refuses_clash_in_va2_form :
    (Config.mk { XoParams.recommended with dsrd := 26 } .little).wellFormed = false := by decide

/-- The recommended numerals, and another legal choice. -/
theorem test_wellFormed_accepts :
    XoParams.recommended.wellFormed = true ∧ (XoParams.mk 0 1 2 2 3).wellFormed = true ∧
      Config.atReset.wellFormed = true := by decide

/-- R38: a misaligned base, and a text that reaches 2^64 (Part 6: prog_base = 0xFFFF_FFFF_FFFF_FFFC, one word). -/
theorem test_progMapPremise_refuses :
    progMapPremise 0x1002 1 = false ∧ progMapPremise 0xFFFFFFFFFFFFFFFC 1 = false := by decide

/-- Part 6: prog_base = 0xFFFF_FFFF_FFFF_FFF8 with one word is legal. -/
theorem test_progMapPremise_accepts :
    progMapPremise 0xFFFFFFFFFFFFFFF8 1 = true ∧ progMapPremise 0 0 = true := by decide

/-- The launch check admits a text that ends exactly at 2^64 and none that goes past it, and no misaligned base. -/
theorem test_progMapAdmitted :
    progMapAdmitted 0xFFFFFFFFFFFFFFFC 1 = true ∧ progMapAdmitted 0xFFFFFFFFFFFFFFFC 2 = false ∧
      progMapAdmitted 0x1002 1 = false := by decide

/-! ### Decoding (Part 2): words in bits, in hexadecimal, in bytes -/

theorem test_decode_maddedu :
    decode XoParams.recommended 0b000100_00100_00000_00001_00010_110010 = .ok (.maddedu 4 0 1 2) ∧
      decode XoParams.recommended 0x13FFFFF2 = .ok (.maddedu 31 31 31 31) := by decide

theorem test_decode_maddedus :
    decode XoParams.recommended 0b000100_00100_00000_00001_00010_111001 = .ok (.maddedus 4 0 1 2) ∧
      decode XoParams.recommended 0x128400F9 = .ok (.maddedus 20 4 0 3) := by decide

theorem test_decode_divmod2du :
    decode XoParams.recommended 0b000100_00100_00000_00001_00010_111010 = .ok (.divmod2du 4 0 1 2) ∧
      decode XoParams.recommended 0x10A2093A = .ok (.divmod2du 5 2 1 4) := by decide

theorem test_decode_dsld :
    decode XoParams.recommended 0b000100_00100_00000_00001_00010_11010_0 = .ok (.dsld 4 0 1 2 false) ∧
      decode XoParams.recommended 0b000100_00100_00000_00001_00010_11010_1 = .ok (.dsld 4 0 1 2 true) := by decide

theorem test_decode_dsrd :
    decode XoParams.recommended 0b000100_00100_00000_00001_00010_11011_0 = .ok (.dsrd 4 0 1 2 false) ∧
      decode XoParams.recommended 0b000100_00100_00000_00001_00010_11011_1 = .ok (.dsrd 4 0 1 2 true) := by decide

/-- Part 2.2: the words that are none of the five. There is no `maddedu.` (0x108008B3). -/
theorem test_decode_refuses :
    [0x108008B3, 0x108008B8, 0x108008BB, 0x10000000, 0x00000000, 0x7C8008B2, 0xFFFFFFFF, 0x60000000].map
      (fun w => decide (decode XoParams.recommended w = .error .notLs003Instruction)) = List.replicate 8 true := by decide

/-- Part 2.1, the words of the assembly column. -/
theorem test_encode :
    encode XoParams.recommended (.maddedu 4 0 1 2) = 0x108008B2 ∧
      encode XoParams.recommended (.maddedus 20 4 0 3) = 0x128400F9 ∧
      encode XoParams.recommended (.divmod2du 5 2 1 4) = 0x10A2093A ∧
      encode XoParams.recommended (.dsld 4 0 1 2 true) = 0x108008B5 ∧
      encode XoParams.recommended (.dsrd 31 31 31 31 true) = 0x13FFFFF7 := by decide

/-- Part 2.1, both byte columns of one row, and Part 6: big-endian bytes read as little-endian are refused. -/
theorem test_decode_bytes_orders :
    decodeBytes ⟨XoParams.recommended, .big⟩ [0x10, 0xA2, 0x09, 0x3A] = .ok (.divmod2du 5 2 1 4, []) ∧
      decodeBytes ⟨XoParams.recommended, .little⟩ [0x3A, 0x09, 0xA2, 0x10, 7] = .ok (.divmod2du 5 2 1 4, [7]) ∧
      decodeBytes ⟨XoParams.recommended, .little⟩ [0x10, 0x80, 0x08, 0xB2] = .error .notLs003Instruction ∧
      decodeBytes ⟨XoParams.recommended, .big⟩ [0x10, 0x80, 0x08] = .error .truncated := by decide

/-- With other numerals other words decode: 50 is then no `maddedu`. -/
theorem test_decode_other_numerals :
    decode ⟨0, 1, 2, 2, 3⟩ 0x10800880 = .ok (.maddedu 4 0 1 2) ∧
      decode ⟨0, 1, 2, 2, 3⟩ 0x10800885 = .ok (.dsld 4 0 1 2 true) ∧
      decode ⟨0, 1, 2, 2, 3⟩ 0x108008B2 = .error .notLs003Instruction := by decide

/-- The host's reading of the table: a row's match word, and a word cut to fewer bits. -/
theorem test_decodeTableWord :
    decodeTableWord 32 0x10000036 = some (.dsrd 0 0 0 0 false) ∧ decodeTableWord 16 0x10000036 = none := by decide

/-- R57, R58, R59: source lines. `maddedu.` and an extended mnemonic are none. -/
theorem test_assembly :
    parseAssembly "maddedu r4, r0, r1, r2".toList = some (.maddedu 4 0 1 2) ∧
      parseAssembly "dsrd. r10,r20,r1,r3 # shift".toList = some (.dsrd 10 20 1 3 true) ∧
      parseAssembly "maddedu. r4,r0,r1,r2".toList = none ∧
      parseAssembly "dsld r4,r0,r32,r2".toList = none ∧
      assemblyText (.dsld 20 4 1 3 false) = "dsld r20,r4,r1,r3".toList := by decide

/-! ### One instruction (Parts 3 and 4) -/

/-- The reset state with the three operands in r0, r1, r2. -/
def withOperands (a b c : Word) : State := ((State.reset.setReg 0 a).setReg 1 b).setReg 2 c

/-- Two registers after an instruction, if it completes. -/
def regsAfter (i : Instr) (s : State) (q r : Reg) : Option (Word × Word) :=
  match exec i s with
  | .next t => some (t.reg q, t.reg r)
  | _ => none

/-- CR after an instruction, if it completes. -/
def crAfter (i : Instr) (s : State) : Option (BitVec 32) :=
  match exec i s with
  | .next t => some t.cr
  | _ => none

/-- 3.1 row 8. -/
theorem test_maddedu_general :
    regsAfter (.maddedu 4 0 1 2) (withOperands 0x123456789ABCDEF0 0xFEDCBA9876543210 0x0F0F0F0F0F0F0F0F) 4 2 =
      some (0x327C980D6527DE0F, 0x121FA00AD77D7422) := by decide

/-- Part 4: `maddedu r4,r4,r4,r2` reads the old r4 twice. -/
theorem test_maddedu_target_is_source :
    regsAfter (.maddedu 4 4 4 2) ((withOperands 0 0 1).setReg 4 3) 4 2 = some (10, 0) := by decide

/-- 3.2 row 11: b and c negative. -/
theorem test_maddedus_general :
    regsAfter (.maddedus 4 0 1 2) (withOperands 0x123456789ABCDEF0 0xFEDCBA9876543210 0x8F0F0F0F0F0F0F0F) 4 2 =
      some (0xB27C980D6527DE0F, 0xFFEB49923CC09531) := by decide

/-- 3.2 row 7: the minimum, -2^127. -/
theorem test_maddedus_minimum :
    regsAfter (.maddedus 4 0 1 2) (withOperands 0xFFFFFFFFFFFFFFFF 0x8000000000000000 0x8000000000000000) 4 2 =
      some (0, 0x8000000000000000) := by decide

/-- 3.3 row 10. -/
theorem test_divmod2du_general :
    regsAfter (.divmod2du 4 0 1 2) (withOperands 0x0123456789ABCDEF 0xFEDCBA9876543210 0x0F1E2D3C4B5A6978) 4 2 =
      some (0x0124924924924923, 0x8D5477074E710148) := by decide

/-- 3.3 row 5: division by zero with a zero high half is the error case, and completes. -/
theorem test_divmod2du_by_zero :
    regsAfter (.divmod2du 4 0 1 2) (withOperands 0 0 5) 4 2 = some (0xFFFFFFFFFFFFFFFF, 0) := by decide

/-- 3.4 row 8: the high bits of b are ignored. 3.6: CR = 0x1234_5678 before, CR0 becomes 0101 and the rest stays. -/
theorem test_dsld :
    regsAfter (.dsld 4 0 1 2 false) (withOperands 0x123456789ABCDEF0 0xFFFFFFFFFFFFFFC8 0xAB) 4 2 =
        some (0x3456789ABCDEF0AB, 0x12) ∧
      crAfter (.dsld 4 0 1 2 true) { withOperands 0x8000000000000001 1 0 with cr := 0x12345678 } = some 0x52345678 := by
  decide

/-- 3.5 row 8. -/
theorem test_dsrd_count :
    regsAfter (.dsrd 4 0 1 2 false) (withOperands 0x123456789ABCDEF0 0xFFFFFFFFFFFFFFC8 0xAB00000000000000) 4 2 =
      some (0xAB123456789ABCDE, 0xF000000000000000) := by decide

/-- 3.5 row 6: LT and overflow. -/
theorem test_dsrd_record :
    crAfter (.dsrd 4 0 1 2 true) (withOperands 0x123456789ABCDEF0 63 0xFFFFFFFFFFFFFFFF) = some 0x90000000 := by decide

/-- Part 4: `dsld.` with RT = RC leaves one of the two values in the register, and CR0 is 0101 in either case. -/
theorem test_dsld_draw :
    (regsAfter (.dsld 2 0 1 2 true) (withOperands 0x8000000000000001 1 0) 2 1 = some (2, 1) ∨
      regsAfter (.dsld 2 0 1 2 true) (withOperands 0x8000000000000001 1 0) 2 1 = some (1, 1)) ∧
    crAfter (.dsld 2 0 1 2 true) (withOperands 0x8000000000000001 1 0) = some 0x50000000 := by
  have h : (withOperands 0x8000000000000001 1 0).pc.toNat + 4 < 2 ^ 64 := by decide
  have h1 : (execTarget (.dsld 2 0 1 2 true) (withOperands 0x8000000000000001 1 0)).reg 1 = 1 := by
    rw [execTarget_reg_other _ _ 1 (by decide) (by decide)]
    decide
  simp only [regsAfter, crAfter, exec_next _ _ h, h1, execTarget_cr]
  refine ⟨?_, by decide⟩
  rcases execTarget_reg_draw (.dsld 2 0 1 2 true) (withOperands 0x8000000000000001 1 0) rfl with e | e
  · left
    exact congrArg (fun w => some (w, 1)) (e.trans (by decide))
  · right
    exact congrArg (fun w => some (w, 1)) (e.trans (by decide))

/-! ### Launch, fetch and step (Parts 5 and 6) -/

/-- A launch of a program in 64-bit mode from its first word, with the operands of program P2. -/
def request (order : ByteOrder) (base pc : Word) (program : List InsnWord) : LaunchRequest :=
  { gpr := (withOperands 0x123456789ABCDEF0 0xFEDCBA9876543210 0x0F0F0F0F0F0F0F0F).gpr
    pc := pc
    cr := 0x12345678
    xer := 0
    progBase := base
    program := program
    config := { xo := XoParams.recommended, byteOrder := order }
    mode := .bits64
    svp64Prefix := false }

/-- Program P2 at 0x2000. -/
def requestP2 (order : ByteOrder) : LaunchRequest := request order 0x2000 0x2000 [0x108008B2, 0x10A2093A]

/-- What a step gave, without the state. -/
def stopOf (o : Host.Outcome State Fault Refusal) : Option Stop :=
  match o with
  | .next _ => none
  | .fault f => some (.fault f)
  | .refused r => some (.refused r)

/-- The pc and one register after a step. -/
def stepTo (s : State) (r : Reg) : Option (Word × Word) :=
  match step s with
  | .next t => some (t.pc, t.reg r)
  | _ => none

/-- P2, step 1, from either byte order. -/
theorem test_step_p2 :
    stepTo (requestP2 .big).state 4 = some (0x2004, 0x327C980D6527DE0F) ∧
      stepTo (requestP2 .little).state 4 = some (0x2004, 0x327C980D6527DE0F) := by decide

/-- Part 6: the bytes of P2 in memory. -/
theorem test_launch_bytes :
    (requestP2 .big).state.mem.readBytes 0x2000 8 = some [0x10, 0x80, 0x08, 0xB2, 0x10, 0xA2, 0x09, 0x3A] ∧
      (requestP2 .little).state.mem.readBytes 0x2000 8 = some [0xB2, 0x08, 0x80, 0x10, 0x3A, 0x09, 0xA2, 0x10] := by
  decide

/-- Part 6: the empty program has ended at launch, and so has the reset state. -/
theorem test_empty_program :
    stopOf (step (request .big 0x2000 0x2000 []).state) = some (.fault .endOfRun) ∧
      stopOf (step State.reset) = some (.fault .endOfRun) := by decide

/-- Part 6: a misaligned pc, and the two addresses next to the text; the end of the text is no refusal. -/
theorem test_fetch_stops :
    stopOf (launch (request .big 0x2000 0x1002 [0x108008B2])) = some (.refused .pcMisaligned) ∧
      stopOf (step (request .big 0x2000 0x2008 [0x108008B2]).state) = some (.refused .fetchOutsideProgram) ∧
      stopOf (step (request .big 0x2000 0x1FFC [0x108008B2]).state) = some (.refused .fetchOutsideProgram) ∧
      stopOf (step (request .big 0x2000 0x2004 [0x108008B2]).state) = some (.fault .endOfRun) := by decide

/-- Log 23: a launch whose pc is the second word of P2 is admitted, and its first step runs that word (3.3: a above b gives
all ones). -/
theorem test_launch_inside_text :
    stopOf (launch (request .big 0x2000 0x2004 [0x108008B2, 0x108008BA])) = none ∧
      stepTo ({ request .big 0x2000 0x2004 [0x108008B2, 0x108008BA] with
        gpr := (withOperands 6 5 0).gpr } : LaunchRequest).state 4 = some (0x2008, 0xFFFFFFFFFFFFFFFF) := by decide

/-- Part 6: the last word of the address space is refused by the wrap check; one word below it runs. -/
theorem test_pc_wrap :
    stopOf (step (request .big 0xFFFFFFFFFFFFFFFC 0xFFFFFFFFFFFFFFFC [0x108008B2]).state) = some (.refused .pcWrap) ∧
      stopOf (launch (request .big 0xFFFFFFFFFFFFFFFC 0xFFFFFFFFFFFFFFFC [0x108008B2])) = none ∧
      stepTo (request .big 0xFFFFFFFFFFFFFFF8 0xFFFFFFFFFFFFFFF8 [0x108008B2]).state 4 =
        some (0xFFFFFFFFFFFFFFFC, 0x327C980D6527DE0F) := by decide

/-- Part 6: 32-bit mode and a vector prefix; P6: a word that is none of the five. -/
theorem test_refusals :
    stopOf (launch { requestP2 .big with mode := .bits32 }) = some (.refused .outOfScopeMode) ∧
      stopOf (launch { requestP2 .big with svp64Prefix := true }) = some (.refused .outOfScopeMode) ∧
      stopOf (step (request .big 0x6004 0x6004 [0x60000000]).state) = some (.refused .notLs003Instruction) := by decide

/-- The host's one-word program runs as the first instruction after reset: `divmod2du` of zeros is the error case. -/
theorem test_withFetchWord :
    stepTo (State.reset.withFetchWord 32 0x108008BA) 4 = some (4, 0xFFFFFFFFFFFFFFFF) := by decide

/-- Memory: an unlisted byte has no value, a second write replaces the first, and the order stays rising. -/
theorem test_memory :
    Memory.read (Memory.write [] 5 0) 5 = some 0 ∧ Memory.read (Memory.write [] 5 0) 4 = none ∧
      Memory.write (Memory.write (Memory.write [] 5 1) 3 2) 5 7 = [(3, 2), (5, 7)] ∧
      Memory.write [] (2 ^ 64) 1 = [] := by decide

/-! ### Witnesses: inputs that meet the hypotheses of the obligations -/

/-- DecodeOfEncodeIsIdentity, DecodableWordsAreTheSevenPatterns, DecodeBytesOfEncodeBytes: legal numerals. -/
theorem witness_wellFormed : XoParams.recommended.wellFormed = true ∧ (Config.mk ⟨0, 1, 2, 2, 3⟩ .little).wellFormed = true := by
  decide

/-- EncodeOfDecodeIsIdentity: a word that decodes. -/
theorem witness_EncodeOfDecodeIsIdentity : decode XoParams.recommended 0x108008B2 = .ok (.maddedu 4 0 1 2) := by decide

/-- AssemblyTextReadsBack: blanks. -/
theorem witness_AssemblyTextReadsBack : ∀ c ∈ ([' '] : List Char) ++ ['\t'] ++ [] ++ [' ', ' '], isBlank c = true := by
  simp [isBlank]

/-- StepRunsDecodedInstruction: the first and the last word of program P2. -/
theorem witness_StepRunsDecodedInstruction :
    let s := (requestP2 .big).state
    let t := { s with pc := 0x2004 }
    (s.pc.toNat % 4 = 0 ∧ s.progBase.toNat ≤ s.pc.toNat ∧ s.pc.toNat + 4 ≤ s.progBase.toNat + 4 * s.progLen ∧
      s.mem.read s.pc.toNat = some 0x10 ∧ s.mem.read (s.pc.toNat + 1) = some 0x80 ∧
      s.mem.read (s.pc.toNat + 2) = some 0x08 ∧ s.mem.read (s.pc.toNat + 3) = some 0xB2 ∧
      decode s.config.xo (assembleWord s.config.byteOrder 0x10 0x80 0x08 0xB2) = .ok (.maddedu 4 0 1 2)) ∧
    (t.pc.toNat % 4 = 0 ∧ t.progBase.toNat ≤ t.pc.toNat ∧ t.pc.toNat + 4 ≤ t.progBase.toNat + 4 * t.progLen ∧
      t.mem.read t.pc.toNat = some 0x10 ∧ t.mem.read (t.pc.toNat + 1) = some 0xA2 ∧
      t.mem.read (t.pc.toNat + 2) = some 0x09 ∧ t.mem.read (t.pc.toNat + 3) = some 0x3A ∧
      decode t.config.xo (assembleWord t.config.byteOrder 0x10 0xA2 0x09 0x3A) = .ok (.divmod2du 5 2 1 4)) := by
  decide

/-- FetchStopsOutsideTheText, clause by clause at the edges: misaligned inside the text, at the end, below it, above it. -/
theorem witness_FetchStopsOutsideTheText :
    let s := (requestP2 .big).state
    (({ s with pc := 0x2001 } : State).pc.toNat % 4 ≠ 0) ∧
    (({ s with pc := 0x2008 } : State).pc.toNat % 4 = 0 ∧
      ({ s with pc := 0x2008 } : State).pc.toNat = s.progBase.toNat + 4 * s.progLen) ∧
    (({ s with pc := 0x1FFC } : State).pc.toNat % 4 = 0 ∧
      ({ s with pc := 0x1FFC } : State).pc.toNat ≠ s.progBase.toNat + 4 * s.progLen ∧
      ({ s with pc := 0x1FFC } : State).pc.toNat < s.progBase.toNat) ∧
    (({ s with pc := 0x200C } : State).pc.toNat % 4 = 0 ∧
      ({ s with pc := 0x200C } : State).pc.toNat ≠ s.progBase.toNat + 4 * s.progLen ∧
      s.progBase.toNat + 4 * s.progLen < ({ s with pc := 0x200C } : State).pc.toNat + 4) := by decide

/-- ForeignWordIsRefused: the word of program P6. -/
theorem witness_ForeignWordIsRefused :
    let s := (request .big 0x6004 0x6004 [0x60000000]).state
    (s.pc.toNat % 4 = 0 ∧ s.progBase.toNat ≤ s.pc.toNat ∧ s.pc.toNat + 4 ≤ s.progBase.toNat + 4 * s.progLen ∧
      s.mem.read s.pc.toNat = some 0x60 ∧ s.mem.read (s.pc.toNat + 1) = some 0 ∧
      s.mem.read (s.pc.toNat + 2) = some 0 ∧ s.mem.read (s.pc.toNat + 3) = some 0) ∧
    ∀ i, encode s.config.xo i ≠ assembleWord s.config.byteOrder 0x60 0 0 0 := by
  refine ⟨by decide, fun i h => ?_⟩
  have hp : Laws.EncodeFields.Statement i := by
    cases i with
    | maddedu rt ra rb rc => exact Laws.EncodeFields.maddedu rt ra rb rc
    | maddedus rt ra rb rc => exact Laws.EncodeFields.maddedus rt ra rb rc
    | divmod2du rt ra rb rc => exact Laws.EncodeFields.divmod2du rt ra rb rc
    | dsld rt ra rb rc r => exact Laws.EncodeFields.dsld rt ra rb rc r
    | dsrd rt ra rb rc r => exact Laws.EncodeFields.dsrd rt ra rb rc r
  have := (hp (request .big 0x6004 0x6004 [0x60000000]).state.config.xo).1
  rw [h] at this
  exact absurd this (by decide)

/-- LaunchRefusals: one request for each clause, and for each cause of the last, and one with every cause at once. -/
theorem witness_LaunchRefusals :
    ({ requestP2 .big with mode := .bits32 } : LaunchRequest).mode = .bits32 ∧
    ({ requestP2 .big with svp64Prefix := true } : LaunchRequest).svp64Prefix = true ∧
    ((request .big 0x2000 0x1002 []).mode = .bits64 ∧ (request .big 0x2000 0x1002 []).svp64Prefix = false ∧
      (request .big 0x2000 0x1002 []).pc.toNat % 4 ≠ 0) ∧
    ((request .big 0x2002 0x2000 []).pc.toNat % 4 = 0 ∧ (request .big 0x2002 0x2000 []).progBase.toNat % 4 ≠ 0) ∧
    ((request .big 0xFFFFFFFFFFFFFFFC 0 [0, 0]).pc.toNat % 4 = 0 ∧
      2 ^ 64 < (request .big 0xFFFFFFFFFFFFFFFC 0 [0, 0]).progBase.toNat +
        4 * (request .big 0xFFFFFFFFFFFFFFFC 0 [0, 0]).program.length) ∧
    ¬ ({ requestP2 .big with config := ⟨⟨50, 57, 58, 25, 27⟩, .big⟩ } : LaunchRequest).config.xo.patterns.Nodup ∧
    (({ request .big 0x2002 0x1002 [] with mode := .bits32 } : LaunchRequest).mode = .bits32 ∧
      ({ request .big 0x2002 0x1002 [] with mode := .bits32 } : LaunchRequest).pc.toNat % 4 ≠ 0 ∧
      ({ request .big 0x2002 0x1002 [] with mode := .bits32 } : LaunchRequest).progBase.toNat % 4 ≠ 0) := by
  decide

/-- LaunchPlacesProgram: P2, and a program that ends at the last admitted address. -/
theorem witness_LaunchPlacesProgram :
    ∀ q ∈ [requestP2 .little, request .big 0xFFFFFFFFFFFFFFF8 0xFFFFFFFFFFFFFFF8 [0x108008B2]],
      q.mode = .bits64 ∧ q.svp64Prefix = false ∧ q.pc = q.progBase ∧ q.config.xo.patterns.Nodup ∧
        q.progBase.toNat % 4 = 0 ∧ q.progBase.toNat + 4 * q.program.length < 2 ^ 64 := by decide

/-- StepKeepsInvariant, StepChangesOnlyTwoRegistersAndCr0: a state with the invariant that takes a step. -/
theorem witness_StepKeepsInvariant : (requestP2 .big).state.Inv ∧ ∃ t, step (requestP2 .big).state = .next t :=
  ⟨by decide, _, rfl⟩

/-- OnlyForeignWordsAreRefused: states with the invariant for all three outcomes (the first is the witness above). -/
theorem witness_OnlyForeignWordsAreRefused :
    ((request .big 0x2000 0x2000 []).state.Inv ∧
      step (request .big 0x2000 0x2000 []).state = .fault .endOfRun) ∧
    ((request .big 0x6004 0x6004 [0x60000000]).state.Inv ∧
      step (request .big 0x6004 0x6004 [0x60000000]).state = .refused .notLs003Instruction) :=
  ⟨⟨by decide, rfl⟩, by decide, rfl⟩

/-- StraightLineRunEnds: P2 with its two words to go, and with none to go. -/
theorem witness_StraightLineRunEnds :
    let s := (requestP2 .big).state
    (s.Inv ∧ s.pc.toNat + 4 * 2 = s.progBase.toNat + 4 * s.progLen ∧
      ∀ k < 2, ∃ i, fetchInstr { s with pc := s.pc + BitVec.ofNat 64 (4 * k) } = .ok i) ∧
    (({ s with pc := 0x2008 } : State).Inv ∧
      ({ s with pc := 0x2008 } : State).pc.toNat + 4 * 0 = s.progBase.toNat + 4 * s.progLen) := by
  refine ⟨⟨by decide, by decide, fun k hk => ?_⟩, by decide⟩
  match k, hk with
  | 0, _ => exact ⟨.maddedu 4 0 1 2, by decide⟩
  | 1, _ => exact ⟨.divmod2du 5 2 1 4, by decide⟩

/-- PcAdvancesByFourOrIsRefused, ExecutionNeverFaults and the five result statements: the pc on both sides of the limit,
aligned and not. -/
theorem witness_pc_limits :
    ({ State.reset with pc := 0xFFFFFFFFFFFFFFFB } : State).pc.toNat + 4 < 2 ^ 64 ∧
    (({ State.reset with pc := 0xFFFFFFFFFFFFFFF8 } : State).pc.toNat + 4 < 2 ^ 64 ∧
      ({ State.reset with pc := 0xFFFFFFFFFFFFFFF8 } : State).pc.toNat % 4 = 0) ∧
    2 ^ 64 ≤ ({ State.reset with pc := 0xFFFFFFFFFFFFFFFC } : State).pc.toNat + 4 := by decide

/-- ExecutionNeverFaults: the refusal its second clause speaks of. -/
theorem witness_ExecutionNeverFaults :
    exec (.dsld 4 0 1 2 true) { State.reset with pc := 0xFFFFFFFFFFFFFFFC } = .refused .pcWrap := rfl

/-- The operand conditions inside the result statements: RT apart from RC and equal to it, a below b, equal to b (at the
edge) and above it, both values of record, and the field of CR that is CR0. -/
theorem witness_results :
    ((4 : Reg) ≠ 2 ∧ (2 : Reg) = 2) ∧
    ((withOperands 4 5 0).reg 0).toNat < ((withOperands 4 5 0).reg 1).toNat ∧
    ((withOperands 5 5 0).reg 1).toNat ≤ ((withOperands 5 5 0).reg 0).toNat ∧
    ((withOperands 6 5 0).reg 1).toNat ≤ ((withOperands 6 5 0).reg 0).toNat ∧
    (1 : Fin 8) ≠ 0 := by decide

/-- OnlyRecordFormsTouchCr, XerIsNeverReadOrWritten, XerIsOpaque, DrawCounterAdvancesOnlyOnDraws, OverflowBitIsLostOneBit: each
instruction completes, with RT = RC too. -/
theorem witness_exec_next :
    ∀ i ∈ [Instr.maddedu 4 0 1 2, .maddedus 2 0 1 2, .divmod2du 4 0 1 2, .dsld 4 0 1 2 true, .dsld 2 0 1 2 true,
      .dsrd 4 0 1 2 true, .dsrd 4 0 1 2 false], ∃ t, exec i (withOperands 3 0 7) = .next t := by
  intro i _
  exact ⟨_, exec_next i _ (by decide)⟩

/-- OverflowBitIsLostOneBit: a count of zero, written as 64. -/
theorem witness_OverflowBitIsLostOneBit :
    ((withOperands 3 64 7).reg 1).toNat % 64 = 0 ∧ ∃ t, exec (.dsrd 4 0 1 2 true) (withOperands 3 64 7) = .next t :=
  ⟨by decide, _, rfl⟩

/-- EveryInstructionReadsAndWritesItsList: two states that differ in the old RT, CR, XER and pc (and, for the shift, in
the high bits of RB), the second pair with RT = RC and the same draw. -/
theorem witness_EveryInstructionReadsAndWritesItsList :
    let s₁ := withOperands 3 8 7
    let s₂ := { (withOperands 3 0xC8 7).setReg 4 9 with cr := 5, xer := 6, pc := 8 }
    (s₁.reg 0 = s₂.reg 0 ∧ (s₁.reg 1).toNat % 64 = (s₂.reg 1).toNat % 64 ∧ s₁.reg 1 ≠ s₂.reg 1 ∧ s₁.reg 2 = s₂.reg 2 ∧
      s₁.draws = s₂.draws) ∧
    (∃ t₁ t₂, exec (.dsld 4 0 1 2 true) s₁ = .next t₁ ∧ exec (.dsld 4 0 1 2 true) s₂ = .next t₂) ∧
    (∃ t₁ t₂, exec (.dsrd 2 0 1 2 false) s₁ = .next t₁ ∧ exec (.dsrd 2 0 1 2 false) s₂ = .next t₂) ∧
    (∃ t₁ t₂, exec (.maddedu 4 0 2 2) s₁ = .next t₁ ∧ exec (.maddedu 4 0 2 2) s₂ = .next t₂) :=
  ⟨by decide, ⟨_, _, rfl, rfl⟩, ⟨_, _, rfl, rfl⟩, _, _, rfl, rfl⟩

/-- ShiftCountIsLowSixBits: another value of the same low six bits, and a count of zero that is not zero. -/
theorem witness_ShiftCountIsLowSixBits :
    (0xFFFFFFFFFFFFFFC8 : Word).toNat % 64 = (8 : Word).toNat % 64 ∧ (64 : Word).toNat % 64 = 0 := by decide

/-- ShiftsMoveByLowSixBitsOfRb: counts 8 and 63 (the largest), a second state with another high part of RB, and both
instructions complete in both states. -/
theorem witness_ShiftsMoveByLowSixBitsOfRb :
    let s := withOperands 0x123456789ABCDEF0 8 7
    let s' := withOperands 0x123456789ABCDEF0 0xFFFFFFFFFFFFFFC8 7
    ((4 : Reg) ≠ 2 ∧ 8 = ((s.reg 1).extractLsb' 0 6).toNat ∧
      63 = (((withOperands 3 63 7).reg 1).extractLsb' 0 6).toNat ∧
      s'.reg 0 = s.reg 0 ∧ s'.reg 2 = s.reg 2 ∧ (s'.reg 1).extractLsb' 0 6 = (s.reg 1).extractLsb' 0 6) ∧
    (∃ t t', exec (.dsld 4 0 1 2 true) s = .next t ∧ exec (.dsld 4 0 1 2 true) s' = .next t') ∧
    ∃ t t', exec (.dsrd 4 0 1 2 false) s = .next t ∧ exec (.dsrd 4 0 1 2 false) s' = .next t' :=
  ⟨by decide, ⟨_, _, rfl, rfl⟩, _, _, rfl, rfl⟩

/-- NextInstructionSeesNewValues: the two steps of program P2, whose second word reads r2 and r4, the two results of the
first. -/
theorem witness_NextInstructionSeesNewValues :
    let s := (requestP2 .big).state
    let i : Instr := .maddedu 4 0 1 2
    let j : Instr := .divmod2du 5 2 1 4
    (i.rt ≠ i.rc ∧ j.rt ≠ j.rc ∧ j.ra = i.rc ∧ j.rc = i.rt) ∧
    ∃ t u, fetchInstr s = .ok i ∧ step s = .next t ∧ fetchInstr t = .ok j ∧ step t = .next u :=
  ⟨by decide, _, _, rfl, rfl, rfl, rfl⟩

/-- EveryRegisterIsOrdinary: another register than r0. -/
theorem witness_EveryRegisterIsOrdinary : (31 : Reg) ≠ 0 := by decide

/-- DivmodUndoesMaddedu: program P2. -/
theorem witness_DivmodUndoesMaddedu :
    let s := (requestP2 .big).state
    ((4 : Reg) ≠ 2 ∧ (4 : Reg) ≠ 1 ∧ (2 : Reg) ≠ 1 ∧ (5 : Reg) ≠ 4 ∧ (s.reg 2).toNat < (s.reg 1).toNat) ∧
    ∃ t u, exec (.maddedu 4 0 1 2) s = .next t ∧ exec (.divmod2du 5 2 1 4) t = .next u :=
  ⟨by decide, _, _, rfl, rfl⟩

/-- MaddeduUndoesDivmod: the operands of program P2, whose r0 is below r1. -/
theorem witness_MaddeduUndoesDivmod :
    let s := (requestP2 .big).state
    ((4 : Reg) ≠ 2 ∧ (4 : Reg) ≠ 1 ∧ (2 : Reg) ≠ 1 ∧ (5 : Reg) ≠ 2 ∧ (s.reg 0).toNat < (s.reg 1).toNat) ∧
    ∃ t u, exec (.divmod2du 4 0 1 2) s = .next t ∧ exec (.maddedu 5 4 1 2) t = .next u :=
  ⟨by decide, _, _, rfl, rfl⟩

/-- RotateLeftLaw and MaskLaw: the ends of their ranges. -/
theorem witness_rotate_and_mask :
    ((64 ≤ 64 ∧ 64 % 64 = 0) ∧ (0 ≤ 64 ∧ 0 % 64 = 0) ∧ (1 ≤ 64 ∧ 1 % 64 ≠ 0) ∧ (63 ≤ 64 ∧ 63 % 64 ≠ 0)) ∧
    ((0 ≤ 63 ∧ 63 ≤ 63) ∧ (63 ≤ 63 ∧ 63 ≤ 63) ∧ (0 ≤ 0 ∧ 0 ≤ 63)) := by decide

/-- DsldPartitionsShiftedValue and DsrdPartitionsAndMirrorsDsld: two values of c alike in the bits that enter. -/
theorem witness_shift_partitions :
    (0xFFFFFFFFFFFFFFFA : Word).toNat % 2 ^ 4 = (0xA : Word).toNat % 2 ^ 4 ∧
    (0xAFFFFFFFFFFFFFFF : Word).toNat / 2 ^ (64 - 4) = (0xA000000000000000 : Word).toNat / 2 ^ (64 - 4) := by decide

/-- MaddeduChainMultiplies, MaddedusChainMultipliesSigned: the registers of the source's chain (E2, E3). -/
theorem witness_multiply_chain :
    chainOk 0 3 [(20, 4), (21, 5), (22, 6)] = true ∧
      State.reset.pc.toNat + 4 * ([(20, 4), (21, 5), (22, 6)] : List (Reg × Reg)).length < 2 ^ 64 := by decide

/-- DsldChainShiftsLeft, DsrdChainShiftsRight: the two halves of program P3, with their record forms. -/
theorem witness_shift_chains :
    let left : List ((Reg × Reg) × Bool) := [((20, 4), false), ((21, 5), false), ((22, 6), true)]
    let right : List ((Reg × Reg) × Bool) := [((12, 22), false), ((11, 21), false), ((10, 20), true)]
    left ≠ [] ∧ chainOk 1 3 (left.map Prod.fst) = true ∧ chainOk 1 3 (right.map Prod.fst) = true ∧
      State.reset.pc.toNat + 4 * left.length < 2 ^ 64 ∧ right.getLast? = some ((10, 20), true) := by decide

/-- DivmodChainDivides: program P5. -/
theorem witness_DivmodChainDivides :
    ((withOperands 0 0xF4240 0).reg 0).toNat < ((withOperands 0 0xF4240 0).reg 1).toNat ∧
      divChainOk 1 [(22, 6), (21, 5), (20, 4)] = true ∧
      (withOperands 0 0xF4240 0).pc.toNat + 4 * ([(22, 6), (21, 5), (20, 4)] : List (Reg × Reg)).length < 2 ^ 64 := by
  decide

end Sys2Proof.Tests
end

section
/-! SUPPORT. XER is opaque (10_state.md R27): replacing XER commutes with each part of an instruction, and so with the
whole instruction. -/

namespace Sys2Proof.Machine

open Sys2Proof

theorem State.recordCr0_withXer (s : State) (record : Bool) (v : Results) (x : Word) :
    ({ s with xer := x } : State).recordCr0 record v = { s.recordCr0 record v with xer := x } := by
  cases record <;> rfl

theorem State.writeResults_withXer (s : State) (rt rc : Reg) (v : Results) (x : Word) :
    ({ s with xer := x } : State).writeResults rt rc v = { s.writeResults rt rc v with xer := x } := by
  unfold State.writeResults
  split <;> rfl

theorem resultsIn_withXer (i : Instr) (s : State) (x : Word) : resultsIn i { s with xer := x } = resultsIn i s := rfl

theorem execTarget_withXer (i : Instr) (s : State) (x : Word) :
    execTarget i { s with xer := x } = { execTarget i s with xer := x } := by
  unfold execTarget
  rw [resultsIn_withXer, State.recordCr0_withXer, State.writeResults_withXer]
  rfl

/-- Under another XER an instruction completes in the same state, but for that XER (R27). -/
theorem exec_next_withXer {i : Instr} {s t : State} (h : exec i s = .next t) (x : Word) :
    exec i { s with xer := x } = .next { t with xer := x } := by
  obtain ⟨hp, rfl⟩ := exec_eq_next h
  rw [exec_next i { s with xer := x } hp, execTarget_withXer]

/-- Settles O55: the run under the other XER ends in the same state with that XER in place. -/
theorem xerIsOpaque : Obligations.XerIsOpaque := by
  intro i s t x h
  obtain ⟨-, ht⟩ := exec_eq_next h
  have hxer : t.xer = s.xer := by rw [ht, execTarget_xer]
  exact ⟨hxer, { t with xer := x }, exec_next_withXer h x, rfl, rfl, rfl, fun _ _ => rfl, fun _ => rfl⟩

end Sys2Proof.Machine
end

section
/-! SUPPORT. The shift count of the two shifts is the low-order six bits of x[RB] (R71): by the bits of the result, and
by a second state that agrees in those six bits. -/

namespace Sys2Proof.Machine

open Sys2Proof

/-! ### The results left in two different registers -/

/-- With RT and RC apart, RT and RC end as the two results of the instruction (R53). -/
theorem exec_next_reg {i : Instr} {s t : State} (h : exec i s = .next t) (hne : i.rt ≠ i.rc) :
    t.reg i.rt = (resultsIn i s).rt ∧ t.reg i.rc = (resultsIn i s).rs := by
  obtain ⟨-, rfl⟩ := exec_eq_next h
  exact ⟨execTarget_reg_rt i s hne, execTarget_reg_rc i s hne⟩

/-- Two states in which an instruction computes the same results get the same RT and RC. -/
theorem exec_next_reg_congr {i : Instr} {s s' t t' : State} (h : exec i s = .next t)
    (h' : exec i s' = .next t') (hne : i.rt ≠ i.rc) (hr : resultsIn i s' = resultsIn i s) :
    t'.reg i.rt = t.reg i.rt ∧ t'.reg i.rc = t.reg i.rc := by
  obtain ⟨hrt, hrc⟩ := exec_next_reg h hne
  obtain ⟨hrt', hrc'⟩ := exec_next_reg h' hne
  rw [hrt', hrc', hrt, hrc, hr]
  exact ⟨rfl, rfl⟩

/-! ### The count -/

theorem shiftCount_lt (b : Word) : shiftCount b < 64 := (b.extractLsb' 0 6).isLt

/-- `dsld` moves every bit that stays in the word up by the count. -/
theorem dsldResults_rt_getLsbD_add (a b c : Word) {j : Nat} (hj : j + shiftCount b < 64) :
    (dsldResults a b c).rt.getLsbD (j + shiftCount b) = a.getLsbD j := by
  rw [dsldResults_rt_getLsbD a b c _ hj, ← shiftCount_eq, if_neg (by omega), Nat.add_sub_cancel]

/-- `dsrd` moves every bit that stays in the word down by the count. -/
theorem dsrdResults_rt_getLsbD_add (a b c : Word) {j : Nat} (hj : j + shiftCount b < 64) :
    (dsrdResults a b c).rt.getLsbD j = a.getLsbD (j + shiftCount b) := by
  rw [dsrdResults_rt_getLsbD a b c j (by omega), ← shiftCount_eq, Nat.add_comm, if_pos hj]

/-- Two states that agree in x[RA], x[RC] and the count give both shifts the same results. -/
theorem resultsIn_shift_congr {ra rb rc : Reg} {s s' : State} (rt : Reg) (record : Bool)
    (ha : s'.reg ra = s.reg ra) (hc : s'.reg rc = s.reg rc)
    (hb : (s'.reg rb).extractLsb' 0 6 = (s.reg rb).extractLsb' 0 6) :
    resultsIn (.dsld rt ra rb rc record) s' = resultsIn (.dsld rt ra rb rc record) s ∧
      resultsIn (.dsrd rt ra rb rc record) s' = resultsIn (.dsrd rt ra rb rc record) s := by
  have hcount : (s'.reg rb).toNat % 64 = (s.reg rb).toNat % 64 := by
    rw [← shiftCount_eq, ← shiftCount_eq, shiftCount, shiftCount, hb]
  change dsldResults (s'.reg ra) (s'.reg rb) (s'.reg rc) = dsldResults (s.reg ra) (s.reg rb) (s.reg rc) ∧
    dsrdResults (s'.reg ra) (s'.reg rb) (s'.reg rc) = dsrdResults (s.reg ra) (s.reg rb) (s.reg rc)
  rw [ha, hc]
  exact shiftResults_congr _ _ _ _ hcount

/-- Settles O53: RT is x[RA] moved by the count bit by bit, and the results are those of any state that agrees in
x[RA], x[RC] and the count. -/
theorem shiftsMoveByLowSixBitsOfRb : Obligations.ShiftsMoveByLowSixBitsOfRb := by
  rintro rt ra rb rc record s t n hne rfl
  refine ⟨Nat.le_of_lt_succ (shiftCount_lt (s.reg rb)), fun h => ⟨fun j hj => ?_, ?_⟩, fun h => ⟨fun j hj => ?_, ?_⟩⟩
  · have hrt : t.reg rt = (dsldResults (s.reg ra) (s.reg rb) (s.reg rc)).rt := (exec_next_reg h hne).1
    rw [hrt]
    exact dsldResults_rt_getLsbD_add _ _ _ hj
  · intro s' t' ha hc hb h'
    exact exec_next_reg_congr h h' hne (resultsIn_shift_congr rt record ha hc hb).1
  · have hrt : t.reg rt = (dsrdResults (s.reg ra) (s.reg rb) (s.reg rc)).rt := (exec_next_reg h hne).1
    rw [hrt]
    exact dsrdResults_rt_getLsbD_add _ _ _ hj
  · intro s' t' ha hc hb h'
    exact exec_next_reg_congr h h' hne (resultsIn_shift_congr rt record ha hc hb).2

end Sys2Proof.Machine
end

section
/-! SUPPORT. Two consecutive steps (70_reset_and_hazards.md R97): a step is the execution of the instruction fetched in
the very state the step before it left, so what that step wrote is what this one reads. -/

namespace Sys2Proof.Machine

open Sys2Proof

/-- A step that completes is the completed execution of the instruction at the pc (R82). -/
theorem exec_eq_next_of_step {i : Instr} {s t : State} (hf : fetchInstr s = .ok i) (h : step s = .next t) :
    exec i s = .next t := by
  rwa [step_of_fetch hf] at h

theorem exec_next_frame {i : Instr} {s t : State} (h : exec i s = .next t) : Frame i.rt i.rc s t := by
  obtain ⟨-, rfl⟩ := exec_eq_next h
  exact execTarget_frame i s

/-- Settles O54: the result and frame laws of one instruction, for `i` from `s` to `t` and then for `j` from `t` to
`u`, so that `j` reads the registers of `t`. -/
theorem nextInstructionSeesNewValues : Obligations.NextInstructionSeesNewValues := by
  intro i j s t u hfi hst hfj htu
  have hi : exec i s = .next t := exec_eq_next_of_step hfi hst
  have hj : exec j t = .next u := exec_eq_next_of_step hfj htu
  have hmem : ∀ a, u.mem.read a = s.mem.read a := fun a =>
    ((exec_next_frame hj).mem a).trans ((exec_next_frame hi).mem a)
  exact ⟨exec_next_reg hi, (exec_next_frame hi).regs, exec_next_reg hj, hmem⟩

end Sys2Proof.Machine
end

section
/-! SUPPORT. The decoder and the encoder (30_encoding.md): they are inverse to each other, so what a word decodes to is a
question about its fields alone. -/

namespace Sys2Proof

/-! ### Distinct numerals (R50) -/

theorem XoParams.wellFormed_iff (x : XoParams) : x.wellFormed = true ↔ x.patterns.Nodup := decide_eq_true_iff

/-- What the encoder needs of legal numerals: no pattern is taken for one that the decoder tests before it. -/
theorem XoParams.ne_of_wellFormed {x : XoParams} (h : x.wellFormed = true) :
    x.maddedus ≠ x.maddedu ∧ x.divmod2du ≠ x.maddedu ∧ x.divmod2du ≠ x.maddedus ∧ x.dsrd ≠ x.dsld := by
  rw [XoParams.wellFormed_iff, XoParams.patterns] at h
  simp only [List.nodup_cons, List.mem_cons, not_or] at h
  obtain ⟨⟨hsu, hdu, -⟩, ⟨hds, -⟩, -, ⟨-, hsr, -⟩, -⟩ := h
  exact ⟨Ne.symm hsu, Ne.symm hdu, Ne.symm hds, fun he => hsr (by rw [he])⟩

/-- The two patterns of a VA2-Form instruction are no VA-Form pattern. -/
theorem XoParams.shift_ne_of_wellFormed {x : XoParams} (h : x.wellFormed = true) {xo : BitVec 5}
    (hxo : xo = x.dsld ∨ xo = x.dsrd) (record : Bool) :
    xo ++ BitVec.ofBool record ≠ x.maddedu ∧ xo ++ BitVec.ofBool record ≠ x.maddedus ∧
      xo ++ BitVec.ofBool record ≠ x.divmod2du := by
  rw [XoParams.wellFormed_iff, XoParams.patterns] at h
  have hmem : xo ++ BitVec.ofBool record ∈ [x.dsld ++ 0#1, x.dsld ++ 1#1, x.dsrd ++ 0#1, x.dsrd ++ 1#1] := by
    rcases hxo with rfl | rfl <;> cases record <;> simp
  generalize [x.dsld ++ 0#1, x.dsld ++ 1#1, x.dsrd ++ 0#1, x.dsrd ++ 1#1] = shifts at h hmem
  simp only [List.nodup_cons, List.mem_cons, not_or] at h
  obtain ⟨⟨-, -, hu⟩, ⟨-, hs⟩, hd, -⟩ := h
  exact ⟨fun he => hu (he ▸ hmem), fun he => hs (he ▸ hmem), fun he => hd (he ▸ hmem)⟩

/-! ### Decoder and encoder (R51) -/

/-- Settles O2: legal numerals fail every test before the instruction's own, and the fields read back. -/
theorem decodeOfEncodeIsIdentity : Obligations.DecodeOfEncodeIsIdentity := by
  intro x i hx
  obtain ⟨hsu, hdu, hds, hrl⟩ := XoParams.ne_of_wellFormed hx
  cases i with
  | maddedu rt ra rb rc => simp [decode, encode]
  | maddedus rt ra rb rc => simp [decode, encode, hsu]
  | divmod2du rt ra rb rc => simp [decode, encode, hdu, hds]
  | dsld rt ra rb rc record =>
    obtain ⟨hu, hs, hd⟩ := XoParams.shift_ne_of_wellFormed hx (.inl rfl) record
    simp [decode, encode, hu, hs, hd]
  | dsrd rt ra rb rc record =>
    obtain ⟨hu, hs, hd⟩ := XoParams.shift_ne_of_wellFormed hx (.inr rfl) record
    simp [decode, encode, hu, hs, hd, hrl]

/-- A word is the encoding of its own register fields exactly when its other fields are PO and the given low six bits. -/
theorem encodeFields_fields_eq_iff (w : InsnWord) (low6 : BitVec 6) :
    encodeFields (fieldRT w) (fieldRA w) (fieldRB w) (fieldRC w) low6 = w ↔
      fieldPO w = primaryOpcode ∧ fieldXO6 w = low6 := by
  constructor
  · intro h
    rw [← h]
    simp
  · rintro ⟨hpo, rfl⟩
    exact encodeFields_of_fields w hpo

/-- The same for VA2-Form, whose record bit is the word's own. -/
theorem encodeFields_fields_record_eq_iff (w : InsnWord) (xo : BitVec 5) :
    encodeFields (fieldRT w) (fieldRA w) (fieldRB w) (fieldRC w) (xo ++ BitVec.ofBool (fieldRc w)) = w ↔
      fieldPO w = primaryOpcode ∧ fieldXO5 w = xo := by
  constructor
  · intro h
    have hxo := fieldXO5_encodeFields (fieldRT w) (fieldRA w) (fieldRB w) (fieldRC w) xo (fieldRc w)
    rw [h] at hxo
    exact ⟨((encodeFields_fields_eq_iff w _).mp h).1, hxo⟩
  · rintro ⟨hpo, rfl⟩
    rw [← fieldXO6_eq_append]
    exact encodeFields_of_fields w hpo

/-- Settles O3: the test an instruction was decoded by fixes PO and XO, and its operands are the other fields. -/
theorem encodeOfDecodeIsIdentity : Obligations.EncodeOfDecodeIsIdentity := by
  intro x w i h
  unfold decode at h
  split_ifs at h with hpo hu hs hd hl hr <;> cases h
  · exact (encodeFields_fields_eq_iff w _).mpr ⟨not_not.mp hpo, hu⟩
  · exact (encodeFields_fields_eq_iff w _).mpr ⟨not_not.mp hpo, hs⟩
  · exact (encodeFields_fields_eq_iff w _).mpr ⟨not_not.mp hpo, hd⟩
  · exact (encodeFields_fields_record_eq_iff w _).mpr ⟨not_not.mp hpo, hl⟩
  · exact (encodeFields_fields_record_eq_iff w _).mpr ⟨not_not.mp hpo, hr⟩

/-- With legal numerals a word decodes to an instruction exactly when it is that instruction's word. -/
theorem decode_eq_ok_iff {x : XoParams} (hx : x.wellFormed = true) (w : InsnWord) (i : Instr) :
    decode x w = .ok i ↔ encode x i = w :=
  ⟨encodeOfDecodeIsIdentity x w i, fun h => h ▸ decodeOfEncodeIsIdentity x i hx⟩

/-- Settles O1: the nine words, decoded one by one. -/
theorem specWordsDecodeAsWritten : Obligations.SpecWordsDecodeAsWritten := by
  unfold Obligations.SpecWordsDecodeAsWritten
  decide

/-- Settles O4: the number of the six fields, and of XO and Rc in VA2-Form. -/
theorem encodedWordIsFieldSum : Obligations.EncodedWordIsFieldSum := by
  intro x i
  cases i with
  | maddedu rt ra rb rc => exact encodeFields_toNat rt ra rb rc _
  | maddedus rt ra rb rc => exact encodeFields_toNat rt ra rb rc _
  | divmod2du rt ra rb rc => exact encodeFields_toNat rt ra rb rc _
  | dsld rt ra rb rc record => rw [encode, encodeFields_toNat, low6_toNat]; rfl
  | dsrd rt ra rb rc record => rw [encode, encodeFields_toNat, low6_toNat]; rfl

/-! ### MSB0 positions (R46, R47) -/

/-- A field of a word, by the MSB0 positions of its bits. -/
theorem getMsbD_extractLsb' (w : InsnWord) (lo len j : Nat) (hfit : lo + len ≤ 32) (hj : j < len) :
    (w.extractLsb' lo len).getMsbD j = w.getMsbD (32 - lo - len + j) := by
  have hpos : 31 - (32 - lo - len + j) = lo + (len - 1 - j) := by omega
  simp only [BitVec.getMsbD, BitVec.getLsbD_extractLsb', hpos]
  simp [hj, show len - 1 - j < len by omega, show 32 - lo - len + j < 32 by omega]

/-- A register field of a word, by the MSB0 positions of its bits. -/
theorem getMsbD_of_fieldReg {w : InsnWord} {lo j : Nat} {r : Reg} (h : fieldReg lo w = r) (hfit : lo + 5 ≤ 32)
    (hj : j < 5) : w.getMsbD (32 - lo - 5 + j) = (BitVec.ofNat 5 r.val).getMsbD j := by
  have hbits : BitVec.ofNat 5 r.val = w.extractLsb' lo 5 := by
    rw [← h]
    exact (BitVec.ofNat_toNat 5 _).trans (BitVec.setWidth_eq _)
  rw [hbits, getMsbD_extractLsb' w lo 5 j hfit hj]

/-- Every word the encoder writes holds PO and the four register fields (R46, R47). -/
theorem encode_fields (i : Instr) : Laws.EncodeFields.Statement i := by
  cases i with
  | maddedu rt ra rb rc => exact Laws.EncodeFields.maddedu rt ra rb rc
  | maddedus rt ra rb rc => exact Laws.EncodeFields.maddedus rt ra rb rc
  | divmod2du rt ra rb rc => exact Laws.EncodeFields.divmod2du rt ra rb rc
  | dsld rt ra rb rc record => exact Laws.EncodeFields.dsld rt ra rb rc record
  | dsrd rt ra rb rc record => exact Laws.EncodeFields.dsrd rt ra rb rc record

/-- XO of VA-Form stands at MSB0 26:31. -/
theorem encodeFields_getMsbD_xo6 (rt ra rb rc : Reg) (xo : BitVec 6) (j : Nat) (hj : j < 6) :
    (encodeFields rt ra rb rc xo).getMsbD (26 + j) = xo.getMsbD j := by
  rw [← getMsbD_extractLsb' (encodeFields rt ra rb rc xo) 0 6 j (by omega) hj]
  exact congrArg (·.getMsbD j) (fieldXO6_encodeFields rt ra rb rc xo)

/-- XO and Rc of VA2-Form stand at MSB0 26:30 and 31. -/
theorem encodeFields_getMsbD_xo5 (rt ra rb rc : Reg) (xo : BitVec 5) (record : Bool) :
    (∀ j, j < 5 → (encodeFields rt ra rb rc (xo ++ BitVec.ofBool record)).getMsbD (26 + j) = xo.getMsbD j) ∧
      (encodeFields rt ra rb rc (xo ++ BitVec.ofBool record)).getMsbD 31 = record := by
  refine ⟨fun j hj => ?_, fieldRc_encodeFields rt ra rb rc xo record⟩
  rw [← getMsbD_extractLsb' _ 1 5 j (by omega) hj]
  exact congrArg (·.getMsbD j) (fieldXO5_encodeFields rt ra rb rc xo record)

/-- Settles O5: each field the decoder reads is a run of MSB0 positions, and holds what was encoded. -/
theorem fieldsStandAtMsb0Positions : Obligations.FieldsStandAtMsb0Positions := by
  intro x i
  obtain ⟨hpo, hrt, hra, hrb, hrc⟩ := encode_fields i x
  refine ⟨fun j hj => ?_, fun j hj => ⟨?_, ?_, ?_, ?_⟩, ?_⟩
  · have hbits := getMsbD_extractLsb' (encode x i) 26 6 j (by omega) hj
    rw [show (encode x i).extractLsb' 26 6 = 4#6 from hpo] at hbits
    simpa using hbits.symm
  · exact getMsbD_of_fieldReg hrt (by omega) hj
  · exact getMsbD_of_fieldReg hra (by omega) hj
  · exact getMsbD_of_fieldReg hrb (by omega) hj
  · exact getMsbD_of_fieldReg hrc (by omega) hj
  · cases i with
    | maddedu rt ra rb rc => exact encodeFields_getMsbD_xo6 rt ra rb rc _
    | maddedus rt ra rb rc => exact encodeFields_getMsbD_xo6 rt ra rb rc _
    | divmod2du rt ra rb rc => exact encodeFields_getMsbD_xo6 rt ra rb rc _
    | dsld rt ra rb rc record => exact encodeFields_getMsbD_xo5 rt ra rb rc _ record
    | dsrd rt ra rb rc record => exact encodeFields_getMsbD_xo5 rt ra rb rc _ record

/-! ### The opcode table and the seven patterns (R50, R51) -/

/-- The mask of VA-Form keeps PO and XO. -/
theorem mask6_eq_iff (w m : InsnWord) (xo : BitVec 6) (hm : m.toNat = 4 * 2 ^ 26 + xo.toNat) :
    w &&& 0xFC00003F = m ↔ fieldPO w = primaryOpcode ∧ fieldXO6 w = xo := by
  rw [← BitVec.toNat_inj, mask6_toNat, hm, fieldPO_eq_iff, fieldXO6_eq_iff]
  have := xo.isLt
  omega

/-- The mask of VA2-Form keeps PO and XO and drops Rc. -/
theorem mask5_eq_iff (w m : InsnWord) (xo : BitVec 5) (hm : m.toNat = 4 * 2 ^ 26 + xo.toNat * 2) :
    w &&& 0xFC00003E = m ↔ fieldPO w = primaryOpcode ∧ fieldXO5 w = xo := by
  rw [← BitVec.toNat_inj, mask5_toNat, hm, fieldPO_eq_iff, fieldXO5_eq_iff]
  have := xo.isLt
  omega

/-- Settles O6: both sides say that PO and XO are the mnemonic's. -/
theorem matchAndMaskDecideMnemonic : Obligations.MatchAndMaskDecideMnemonic := by
  intro w
  have hx : XoParams.recommended.wellFormed = true := by decide
  simp only [decode_eq_ok_iff hx]
  refine ⟨?_, ?_, ?_, ?_, ?_⟩
  · exact (mask6_eq_iff w _ _ rfl).trans (encodeFields_fields_eq_iff w _).symm
  · exact (mask6_eq_iff w _ _ rfl).trans (encodeFields_fields_eq_iff w _).symm
  · exact (mask6_eq_iff w _ _ rfl).trans (encodeFields_fields_eq_iff w _).symm
  · exact (mask5_eq_iff w _ _ rfl).trans (encodeFields_fields_record_eq_iff w _).symm
  · exact (mask5_eq_iff w _ _ rfl).trans (encodeFields_fields_record_eq_iff w _).symm

/-- A word decodes exactly when its PO is 4 and one of the five tests of XO is met. -/
theorem exists_decode_eq_ok_iff (x : XoParams) (w : InsnWord) :
    (∃ i, decode x w = .ok i) ↔ fieldPO w = primaryOpcode ∧ (fieldXO6 w = x.maddedu ∨ fieldXO6 w = x.maddedus ∨
      fieldXO6 w = x.divmod2du ∨ fieldXO5 w = x.dsld ∨ fieldXO5 w = x.dsrd) := by
  unfold decode
  split_ifs <;> simp_all

/-- Settles O7: distinct patterns are seven, and a test of the five-bit XO is a test for two of them. -/
theorem decodableWordsAreTheSevenPatterns : Obligations.DecodableWordsAreTheSevenPatterns := by
  intro x hx
  refine ⟨List.toFinset_card_of_nodup ((XoParams.wellFormed_iff x).mp hx), fun w => ?_⟩
  rw [exists_decode_eq_ok_iff, fieldPO_eq_iff, fieldXO5_eq_iff_pattern, fieldXO5_eq_iff_pattern]
  simp only [XoParams.patterns, fieldXO6, List.mem_cons, List.not_mem_nil, or_false, or_assoc]

/-! ### Bytes (R34) -/

/-- Settles O8: the number of four bytes put side by side. -/
theorem wordOfBytesByOrder : Obligations.WordOfBytesByOrder := by
  have happ : ∀ b0 b1 b2 b3 : Byte, (b0 ++ b1 ++ b2 ++ b3).toNat =
      b0.toNat * 2 ^ 24 + b1.toNat * 2 ^ 16 + b2.toNat * 2 ^ 8 + b3.toNat := by
    intro b0 b1 b2 b3
    rw [append_toNat, append_toNat, append_toNat]
    omega
  exact fun b0 b1 b2 b3 => ⟨happ b0 b1 b2 b3, happ b3 b2 b1 b0⟩

/-- Settles O9: the bytes decode as the word does, and the word as its instruction. -/
theorem decodeBytesOfEncodeBytes : Obligations.DecodeBytesOfEncodeBytes := by
  intro c i rest hc
  rw [encodeBytes, decodeBytes_wordBytes, decodeOfEncodeIsIdentity c.xo i hc]
  rfl

end Sys2Proof
end

section
/-! SUPPORT. Arithmetic laws of the result functions and of the pseudocode primitives, on words alone. -/

namespace Sys2Proof.Machine

open Sys2Proof

theorem results_eq {v w : Results} (ht : v.rt = w.rt) (hs : v.rs = w.rs) : v = w := by
  cases v
  cases w
  simp_all

/-! ### Multiply-add (R62, R65) -/

/-- Read as signed or as unsigned, a word is the same modulo 2^64 (R10). -/
theorem word_toInt_modEq (v : Word) : v.toInt ≡ v.toNat [ZMOD 2 ^ 64] := by
  rw [word_toInt]
  exact Int.modEq_iff_dvd.mpr ⟨(v.getLsbD 63).toNat, by ring⟩

theorem word_toNat_eq_toInt_emod (v : Word) : (v.toNat : Int) = v.toInt % 2 ^ 64 := by
  have hmod : v.toInt % 2 ^ 64 = (v.toNat : Int) % 2 ^ 64 := word_toInt_modEq v
  omega

theorem maddeduResults_rt_toNat (a b c : Word) :
    (maddeduResults a b c).rt.toNat = (a.toNat * b.toNat + c.toNat) % 2 ^ 64 := by
  have := maddeduResults_value a b c
  omega

/-- The low half of `maddedu` is the signed sum too, modulo 2^64 (R62). -/
theorem maddeduResults_rt_signless (a b c : Word) :
    ((maddeduResults a b c).rt.toNat : Int) = (a.toInt * b.toInt + c.toInt) % 2 ^ 64 := by
  have hmod : (a.toInt * b.toInt + c.toInt) % 2 ^ 64 = ((a.toNat : Int) * b.toNat + c.toNat) % 2 ^ 64 :=
    ((word_toInt_modEq a).mul (word_toInt_modEq b)).add (word_toInt_modEq c)
  rw [hmod, maddeduResults_rt_toNat]
  norm_cast

/-- Settles O37: the bound on the sum, its two halves, and the residue of the signed sum. -/
theorem maddeduIsExactAndLowHalfSignless : Obligations.MaddeduIsExactAndLowHalfSignless := fun a b c =>
  ⟨product_add_le a b c, maddeduResults_value a b c, maddeduResults_rt_signless a b c⟩

/-- The low half of `maddedus` is the low half of `maddedu` (R65). -/
theorem maddedusResults_rt (a b c : Word) : (maddedusResults a b c).rt = (maddeduResults a b c).rt := by
  have hvalue := maddedusResults_value a b c
  have hmod : ((a.toNat : Int) * b.toInt + c.toInt) % 2 ^ 64 = ((a.toNat : Int) * b.toNat + c.toNat) % 2 ^ 64 :=
    ((word_toInt_modEq b).mul_left _).add (word_toInt_modEq c)
  have hu : ((maddeduResults a b c).rt.toNat : Int) = ((a.toNat : Int) * b.toNat + c.toNat) % 2 ^ 64 := by
    rw [maddeduResults_rt_toNat]
    norm_cast
  refine BitVec.eq_of_toNat_eq ?_
  omega

/-- The high half of `maddedus`, from that of `maddedu` and the two signs (R65). -/
theorem maddedusResults_rs_toInt (a b c : Word) :
    (maddedusResults a b c).rs.toInt =
      (maddeduResults a b c).rs.toNat - a.toNat * (b.getLsbD 63).toNat - (c.getLsbD 63).toNat := by
  have hs := maddedusResults_value a b c
  have hu : ((maddeduResults a b c).rs.toNat : Int) * 2 ^ 64 + (maddeduResults a b c).rt.toNat =
      a.toNat * b.toNat + c.toNat := by
    exact_mod_cast maddeduResults_value a b c
  rw [maddedusResults_rt, word_toInt b, word_toInt c] at hs
  linarith

/-- Settles O38: the two sums differ by 2^64 times u(a) and 1, where b and c are negative. -/
theorem maddedusAgainstMaddedu : Obligations.MaddedusAgainstMaddedu := by
  intro a b c
  obtain ⟨hlow, hhigh⟩ := signed_product_bounds a b c
  refine ⟨hlow, hhigh, maddedusResults_value a b c, maddedusResults_rt a b c, ?_⟩
  rw [word_toNat_eq_toInt_emod, maddedusResults_rs_toInt]

/-- The zero extension of a word is the 128-bit vector of its unsigned value (R10). -/
theorem setWidth_eq_bv128 (v : Word) : v.setWidth 128 = bv128 v.toNat := by
  refine BitVec.eq_of_toNat_eq ?_
  have := v.isLt
  rw [bv128_toNat_of_nonneg _ (by omega), BitVec.toNat_setWidth, Nat.mod_eq_of_lt (by omega)]

/-- Settles O39: both branches of the pseudocode are `bv128 (u(a) * s(b))`, since `bv128` keeps sums and products. -/
theorem maddedusFollowsSourcePseudocode : Obligations.MaddedusFollowsSourcePseudocode := by
  intro a b c
  have hprod : (if b.getLsbD 63 then -(a.setWidth 128 * -(b.signExtend 128)) else a.setWidth 128 * b.setWidth 128) =
      bv128 (a.toNat * b.toInt) := by
    have hmul : bv128 (a.toNat * b.toInt) = a.setWidth 128 * bv128 b.toInt := by
      rw [setWidth_eq_bv128]
      exact BitVec.ofInt_mul _ _
    rw [hmul]
    split
    · rw [BitVec.mul_neg, BitVec.neg_neg]
      rfl
    · next hb =>
      have hb' : b.toInt = b.toNat := by
        rw [word_toInt, Bool.eq_false_of_not_eq_true hb]
        simp
      rw [hb', setWidth_eq_bv128 b]
  have hsum : bv128 (a.toNat * b.toInt + c.toInt) = bv128 (a.toNat * b.toInt) + c.signExtend 128 :=
    BitVec.ofInt_add _ _
  simp only [hprod, ← hsum]
  exact ⟨rfl, rfl⟩

/-! ### Divide (R67, R70) -/

/-- Settles O40: the comparison implies the second test, and 128-bit division is division of the numbers. -/
theorem divmod2duFollowsSourcePseudocode : Obligations.Divmod2duFollowsSourcePseudocode := by
  intro a b c
  have htest : a < b ∧ b ≠ 0 ↔ a.toNat < b.toNat := by
    rw [BitVec.lt_def]
    refine ⟨And.left, fun h => ⟨h, ?_⟩⟩
    rintro rfl
    simp at h
  have hdividend : (a ++ c : Quad).toNat = a.toNat * 2 ^ 64 + c.toNat := append_toNat a c
  have hdivisor : ((0 : Word) ++ b : Quad).toNat = b.toNat := (append_toNat 0 b).trans (by simp)
  by_cases h : a.toNat < b.toNat
  · obtain ⟨hq, hr⟩ := divmod2duResults_quotient a b c h
    rw [if_pos (htest.mpr h)]
    refine results_eq (BitVec.eq_of_toNat_eq ?_) (BitVec.eq_of_toNat_eq ?_)
    · rw [hq, BitVec.extractLsb'_toNat, BitVec.toNat_udiv, hdividend, hdivisor, Nat.shiftRight_zero, ← hq,
        Nat.mod_eq_of_lt (BitVec.isLt _)]
    · rw [hr, BitVec.extractLsb'_toNat, BitVec.toNat_umod, hdividend, hdivisor, Nat.shiftRight_zero, ← hr,
        Nat.mod_eq_of_lt (BitVec.isLt _)]
  · rw [if_neg (mt htest.mp h)]
    exact divmod2duResults_error a b c (Nat.le_of_not_lt h)

/-- Settles O43: without error, quotient 2^64-1 and remainder 0 say that the dividend is b * (2^64 - 1). -/
theorem divmodErrorPairIsAmbiguous : Obligations.DivmodErrorPairIsAmbiguous := by
  intro a b c
  by_cases h : a.toNat < b.toNat
  · obtain ⟨hq, hr⟩ := divmod2duResults_quotient a b c h
    have hpair : divmod2duResults a b c = { rt := BitVec.allOnes 64, rs := 0 } ↔
        (a.toNat * 2 ^ 64 + c.toNat) / b.toNat = 2 ^ 64 - 1 ∧ (a.toNat * 2 ^ 64 + c.toNat) % b.toNat = 0 := by
      rw [← hq, ← hr]
      constructor
      · intro he
        rw [he]
        exact ⟨rfl, rfl⟩
      · rintro ⟨ht, hs⟩
        exact results_eq (BitVec.eq_of_toNat_eq ht) (BitVec.eq_of_toNat_eq hs)
    rw [hpair, Nat.div_mod_unique (by omega)]
    have := b.isLt
    have := c.isLt
    omega
  · exact iff_of_true (divmod2duResults_error a b c (Nat.le_of_not_lt h)) (.inl (Nat.le_of_not_lt h))

/-! ### Rotation and mask (R13, R14) -/

/-- Settles O44: the two shifted parts have no bit in common, so the OR of them is their sum. -/
theorem rotateLeftLaw : Obligations.RotateLeftLaw := by
  intro v k _
  refine ⟨fun _ => ?_, fun hk => word_eq_of_getLsbD fun j hj => ?_⟩
  · have hdisj : v <<< (k % 64) &&& v >>> (64 - k % 64) = 0 := by
      refine word_eq_of_getLsbD fun j hj => ?_
      rw [BitVec.getLsbD_and, BitVec.getLsbD_shiftLeft, BitVec.getLsbD_ushiftRight]
      by_cases h : j < k % 64
      · simp [h]
      · rw [BitVec.getLsbD_of_ge v (64 - k % 64 + j) (by omega)]
        simp
    rw [rotl64, or_toNat_of_and_zero hdisj, BitVec.toNat_shiftLeft, BitVec.toNat_ushiftRight, Nat.shiftLeft_eq,
      Nat.shiftRight_eq_div_pow]
  · simp [rotl64_getLsbD v k j hj, hk]

theorem mask64_toNat {a b : Nat} (hab : a ≤ b) (hb : b ≤ 63) :
    (mask64 a b).toNat = 2 ^ (63 - b) * (2 ^ (b + 1 - a) - 1) := by
  refine Nat.eq_of_testBit_eq fun j => ?_
  rw [Nat.testBit_two_pow_mul, Nat.testBit_two_pow_sub_one, BitVec.testBit_toNat, ← Bool.decide_and]
  by_cases hj : j < 64
  · rw [mask64_getLsbD a b j hj, decide_eq_decide]
    omega
  · rw [BitVec.getLsbD_of_ge _ _ (by omega), eq_comm, decide_eq_false_iff_not]
    omega

/-- Settles O45: a run of b+1-a ones that begins at bit 63-b. -/
theorem maskLaw : Obligations.MaskLaw := by
  intro a b hab hb
  refine ⟨fun j hj => ?_, ?_⟩
  · rw [mask64_getLsbD a b j hj, decide_eq_true_eq]
    omega
  · rw [mask64_toNat hab hb, Nat.mul_sub_one, ← pow_add, show 63 - b + (b + 1 - a) = 64 - a by omega]

/-! ### The double shifts (R71, R73, R76) -/

theorem shift_results_of_count_zero (a b c : Word) (hb : b.toNat % 64 = 0) :
    dsldResults a b c = { rt := a, rs := 0 } ∧ dsrdResults a b c = { rt := a, rs := 0 } := by
  constructor
  · refine results_eq (word_eq_of_getLsbD fun j hj => ?_) (word_eq_of_getLsbD fun j hj => ?_)
    · rw [dsldResults_rt_getLsbD a b c j hj, hb, if_neg (Nat.not_lt_zero j), Nat.sub_zero]
    · rw [dsldResults_rs_getLsbD a b c j hj, hb]
      simp
  · refine results_eq (word_eq_of_getLsbD fun j hj => ?_) (word_eq_of_getLsbD fun j hj => ?_)
    · rw [dsrdResults_rt_getLsbD a b c j hj, hb, Nat.zero_add, if_pos hj]
    · rw [dsrdResults_rs_getLsbD a b c j hj, hb, Nat.zero_add]
      simp [hj]

/-- Settles O27: both results are functions of the count. -/
theorem shiftCountIsLowSixBits : Obligations.ShiftCountIsLowSixBits := by
  intro a b c
  refine ⟨shiftCount_eq b, fun b' h => ?_, shift_results_of_count_zero a b c⟩
  obtain ⟨hl, hr⟩ := shiftResults_congr a b b' c h
  exact ⟨hl, hr, congrArg cr0Of hl, congrArg cr0Of hr⟩

/-- The two results of `dsld` are the value moved up by the count, cut at bit 64 (R73). -/
theorem dsldResults_value (a b c : Word) :
    (dsldResults a b c).rs.toNat * 2 ^ 64 + (dsldResults a b c).rt.toNat =
      a.toNat * 2 ^ (b.toNat % 64) + c.toNat % 2 ^ (b.toNat % 64) := by
  have hhigh : a.toNat * 2 ^ (b.toNat % 64) / 2 ^ 64 = a.toNat / 2 ^ (64 - b.toNat % 64) := by
    rw [← pow_count_mul b, mul_comm (2 ^ (b.toNat % 64)), Nat.mul_div_mul_right _ _ (by positivity)]
  have hsplit := Nat.div_add_mod (a.toNat * 2 ^ (b.toNat % 64)) (2 ^ 64)
  rw [dsldResults_rs_toNat, dsldResults_rt_toNat, ← hhigh]
  omega

theorem dsldResults_rs_lt (a b c : Word) : (dsldResults a b c).rs.toNat < 2 ^ (b.toNat % 64) := by
  rw [dsldResults_rs_toNat, Nat.div_lt_iff_lt_mul (by positivity), pow_count_mul]
  exact a.isLt

/-- Settles O46: the value, the bound of RS, and what either result takes from c. -/
theorem dsldPartitionsShiftedValue : Obligations.DsldPartitionsShiftedValue := by
  rintro a b c n rfl
  refine ⟨dsldResults_value a b c, dsldResults_rs_lt a b c, fun c' h => BitVec.eq_of_toNat_eq ?_, fun c' =>
    BitVec.eq_of_toNat_eq ?_⟩
  · rw [dsldResults_rt_toNat, dsldResults_rt_toNat, h]
  · rw [dsldResults_rs_toNat, dsldResults_rs_toNat]

/-- RS of `dsrd` is the low bits of a, left-justified (R76). -/
theorem dsrdResults_rs_toNat_eq_mul (a b c : Word) :
    (dsrdResults a b c).rs.toNat = a.toNat % 2 ^ (b.toNat % 64) * 2 ^ (64 - b.toNat % 64) := by
  rw [dsrdResults_rs_toNat, ← pow_count_mul b, Nat.mul_mod_mul_right]

/-- The two results of `dsrd` are the value moved up by 64 less the count, cut at bit 64, below the bits taken from c
(R76). -/
theorem dsrdResults_value (a b c : Word) :
    (dsrdResults a b c).rt.toNat * 2 ^ 64 + (dsrdResults a b c).rs.toNat =
      (c.toNat - c.toNat % 2 ^ (64 - b.toNat % 64)) * 2 ^ 64 + a.toNat * 2 ^ (64 - b.toNat % 64) := by
  have hhigh : a.toNat * 2 ^ (64 - b.toNat % 64) / 2 ^ 64 = a.toNat / 2 ^ (b.toNat % 64) := by
    rw [← pow_count_mul b, Nat.mul_div_mul_right _ _ (by positivity)]
  have hsplit := Nat.div_add_mod (a.toNat * 2 ^ (64 - b.toNat % 64)) (2 ^ 64)
  rw [dsrdResults_rs_toNat, dsrdResults_rt_toNat, ← hhigh]
  omega

/-- `dsrd` of reversed words is `dsld` reversed (R76). -/
theorem dsrdResults_reverse (a b c : Word) :
    (dsrdResults a.reverse b c.reverse).rt = (dsldResults a b c).rt.reverse ∧
      (dsrdResults a.reverse b c.reverse).rs = (dsldResults a b c).rs.reverse := by
  have hn : b.toNat % 64 < 64 := Nat.mod_lt _ (by omega)
  constructor <;> refine word_eq_of_getLsbD fun j hj => ?_
  · rw [dsrdResults_rt_getLsbD _ _ _ j hj, word_reverse_getLsbD (dsldResults a b c).rt j hj, dsldResults_rt_getLsbD _ _ _ _ (by omega)]
    by_cases h : b.toNat % 64 + j < 64
    · rw [if_pos h, if_neg (by omega), word_reverse_getLsbD _ _ h]
      congr 1
      omega
    · rw [if_neg h, if_pos (by omega), word_reverse_getLsbD _ _ hj]
  · rw [dsrdResults_rs_getLsbD _ _ _ j hj, word_reverse_getLsbD (dsldResults a b c).rs j hj, dsldResults_rs_getLsbD _ _ _ _ (by omega)]
    by_cases h : b.toNat % 64 + j < 64
    · simp [h, show ¬ 63 - j < b.toNat % 64 by omega]
    · rw [word_reverse_getLsbD _ _ (show b.toNat % 64 + j - 64 < 64 by omega)]
      simp only [h, show 63 - j < b.toNat % 64 by omega, decide_true, decide_false, Bool.not_false, Bool.true_and]
      congr 1
      omega

/-- Settles O47: the value, RS as a multiple, what either result takes from c, and the mirror image. -/
theorem dsrdPartitionsAndMirrorsDsld : Obligations.DsrdPartitionsAndMirrorsDsld := by
  rintro a b c n rfl
  obtain ⟨hmt, hms⟩ := dsrdResults_reverse a b c
  refine ⟨dsrdResults_value a b c, ?_, fun c' h => BitVec.eq_of_toNat_eq ?_, fun c' => BitVec.eq_of_toNat_eq ?_, hmt,
    hms⟩
  · rw [dsrdResults_rs_toNat_eq_mul, Nat.mul_mod_left]
  · have hhigh : ∀ v : Word, v.toNat - v.toNat % 2 ^ (64 - b.toNat % 64) =
        2 ^ (64 - b.toNat % 64) * (v.toNat / 2 ^ (64 - b.toNat % 64)) := fun v =>
      Nat.sub_eq_of_eq_add (Nat.div_add_mod _ _).symm
    rw [dsrdResults_rt_toNat, dsrdResults_rt_toNat, hhigh, hhigh, h]
  · rw [dsrdResults_rs_toNat, dsrdResults_rs_toNat]

/-! ### CR0 (R25) -/

/-- Settles O30: the sign of RT decides the first three flags, the fourth is free. -/
theorem cr0ValueByFlags : Obligations.Cr0ValueByFlags := by
  intro v
  have hrt : v.rt = 0 ↔ v.rt.toNat = 0 := BitVec.toNat_inj.symm
  have hrs : v.rs = 0 ↔ v.rs.toNat = 0 := BitVec.toNat_inj.symm
  refine ⟨by simp only [cr0Of_toNat, hrt, ne_eq, hrs], ?_⟩
  have hzero : v.rt = 0 ↔ v.rt.toInt = 0 := BitVec.toInt_inj.symm
  unfold cr0Of
  rcases lt_trichotomy v.rt.toInt 0 with h | h | h
  · rw [decide_eq_true h, decide_eq_false (show ¬ 0 < v.rt.toInt by omega),
      decide_eq_false (show ¬ v.rt = 0 by rw [hzero]; omega)]
    cases decide (v.rs ≠ 0) <;> decide
  · rw [decide_eq_false (show ¬ v.rt.toInt < 0 by omega), decide_eq_false (show ¬ 0 < v.rt.toInt by omega),
      decide_eq_true (hzero.mpr h)]
    cases decide (v.rs ≠ 0) <;> decide
  · rw [decide_eq_false (show ¬ v.rt.toInt < 0 by omega), decide_eq_true h,
      decide_eq_false (show ¬ v.rt = 0 by rw [hzero]; omega)]
    cases decide (v.rs ≠ 0) <;> decide

end Sys2Proof.Machine
end

section
/-! SUPPORT. What every instruction does alike: completion, frame, reads and writes, and the registers as a set of equal
cells. -/

namespace Sys2Proof.Machine

open Sys2Proof

/-! ### Completion (R23, R79) -/

/-- Settles O20: below the top the target is reached, whose pc is 4 further; at the top completion is refused. -/
theorem pcAdvancesByFourOrIsRefused : Obligations.PcAdvancesByFourOrIsRefused := by
  intro i s
  refine ⟨fun h => ?_, exec_refused i s⟩
  have hpc : (execTarget i s).pc.toNat = s.pc.toNat + 4 := by rw [execTarget_pc, advancePc_toNat s h]
  exact ⟨execTarget i s, exec_next i s h, hpc, fun ha => by omega⟩

/-- Settles O21: on either side of the wrap limit the outcome is known. -/
theorem executionNeverFaults : Obligations.ExecutionNeverFaults := by
  intro i s
  refine ⟨fun f hf => ?_, fun r hr => ?_, fun h => ⟨_, exec_next i s h⟩⟩
  · rcases Nat.lt_or_ge (s.pc.toNat + 4) (2 ^ 64) with h | h
    · rw [exec_next i s h] at hf
      cases hf
    · rw [exec_refused i s h] at hf
      cases hf
  · rcases Nat.lt_or_ge (s.pc.toNat + 4) (2 ^ 64) with h | h
    · rw [exec_next i s h] at hr
      cases hr
    · rw [exec_refused i s h] at hr
      cases hr
      exact ⟨rfl, h⟩

theorem exec_next_pc {i : Instr} {s t : State} (h : exec i s = .next t) : t.pc.toNat = s.pc.toNat + 4 := by
  obtain ⟨hp, rfl⟩ := exec_eq_next h
  rw [execTarget_pc, advancePc_toNat s hp]

theorem exec_next_crField_ne {i : Instr} {s t : State} (h : exec i s = .next t) (k : Fin 8) (hk : k ≠ 0) :
    t.crField k = s.crField k := by
  obtain ⟨-, rfl⟩ := exec_eq_next h
  exact execTarget_crField_ne i s k hk

/-- Settles O22: the frame of the instruction fetched. -/
theorem stepChangesOnlyTwoRegistersAndCr0 : Obligations.StepChangesOnlyTwoRegistersAndCr0 := by
  intro s t h
  obtain ⟨i, hf, hi⟩ := step_eq_next h
  exact ⟨⟨i, hf, exec_next_frame hi⟩, exec_next_pc hi, exec_next_crField_ne hi⟩

/-- Settles O26: the only draw an instruction makes is that of its two register writes. -/
theorem drawCounterAdvancesOnlyOnDraws : Obligations.DrawCounterAdvancesOnlyOnDraws := by
  intro i s t h
  obtain ⟨-, rfl⟩ := exec_eq_next h
  exact execTarget_draws i s

/-- Settles O25: the frame, and the run under the other XER. -/
theorem xerIsNeverReadOrWritten : Obligations.XerIsNeverReadOrWritten := fun _ _ _ x h =>
  ⟨(exec_next_frame h).xer, exec_next_withXer h x⟩

/-! ### CR (R26) -/

theorem State.writeResults_withCr (s : State) (rt rc : Reg) (v : Results) (cr : BitVec 32) :
    ({ s with cr := cr } : State).writeResults rt rc v = { s.writeResults rt rc v with cr := cr } := by
  unfold State.writeResults
  split <;> rfl

theorem State.recordCr0_withCr (s : State) (record : Bool) (v : Results) (cr : BitVec 32) :
    ({ s with cr := cr } : State).recordCr0 record v =
      { s.recordCr0 record v with cr := if record then cr0Of v ++ cr.extractLsb' 0 28 else cr } := by
  cases record <;> rfl

/-- Under another CR the target is the same, but for CR, which is that other CR with CR0 recorded in it if asked. -/
theorem execTarget_withCr (i : Instr) (s : State) (cr : BitVec 32) :
    execTarget i { s with cr := cr } = { execTarget i s with
      cr := if i.records then cr0Of (resultsIn i s) ++ cr.extractLsb' 0 28 else cr } := by
  have hres : resultsIn i { s with cr := cr } = resultsIn i s := rfl
  unfold execTarget
  rw [hres, State.recordCr0_withCr, State.writeResults_withCr]
  rfl

theorem exists_shift_of_records {i : Instr} (h : i.records = true) :
    ∃ rt ra rb rc, i = .dsld rt ra rb rc true ∨ i = .dsrd rt ra rb rc true := by
  cases i with
  | maddedu => cases h
  | maddedus => cases h
  | divmod2du => cases h
  | dsld rt ra rb rc record => exact ⟨rt, ra, rb, rc, .inl (congrArg _ h)⟩
  | dsrd rt ra rb rc record => exact ⟨rt, ra, rb, rc, .inr (congrArg _ h)⟩

/-- Settles O24: the target under the other CR, with and without the record bit. -/
theorem onlyRecordFormsTouchCr : Obligations.OnlyRecordFormsTouchCr := by
  intro i s t cr h
  obtain ⟨hp, rfl⟩ := exec_eq_next h
  have hrun := exec_next i { s with cr := cr } hp
  rw [execTarget_withCr] at hrun
  cases hr : i.records with
  | false =>
    rw [hr] at hrun
    exact .inl ⟨rfl, execTarget_cr_of_not_records i s hr, hrun⟩
  | true =>
    rw [hr] at hrun
    rw [execTarget_crField_zero i s hr]
    exact .inr ⟨rfl, exists_shift_of_records hr, hrun⟩

/-! ### Reads and writes (R17 to R21) -/

/-- Settles O28: the laws of reading after a register write. -/
theorem everyRegisterIsOrdinary : Obligations.EveryRegisterIsOrdinary := fun s r q v =>
  ⟨State.reg_setReg_self s r v, fun h => State.reg_setReg_ne s r q v (Ne.symm h)⟩

/-- What an instruction leaves in each register, the draw of R21 included. -/
theorem State.writeResults_reg (s : State) (rt rc r : Reg) (v : Results) :
    (s.writeResults rt rc v).reg r =
      if r = rc then (if rt = rc ∧ ¬ Config.drawTakesRs s.draws then v.rt else v.rs)
      else if r = rt then v.rt else s.reg r := by
  by_cases hc : r = rc
  · subst hc
    rw [if_pos rfl]
    by_cases ht : rt = r
    · subst ht
      have hdraw : (s.writeResults rt rt v).reg rt = if Config.drawTakesRs s.draws then v.rs else v.rt := by
        rw [State.writeResults, if_pos rfl]
        exact State.reg_setReg_self s rt _
      rw [hdraw]
      by_cases hd : Config.drawTakesRs s.draws = true <;> simp [hd]
    · rw [State.writeResults_reg_rc s rt r v ht]
      simp [ht]
  · rw [if_neg hc]
    by_cases ht : r = rt
    · subst ht
      rw [if_pos rfl, State.writeResults_reg_rt s r rc v hc]
    · rw [if_neg ht, State.writeResults_reg_other s rt rc r v ht hc]

theorem execTarget_reg (i : Instr) (s : State) (r : Reg) :
    (execTarget i s).reg r =
      if r = i.rc then (if i.rt = i.rc ∧ ¬ Config.drawTakesRs s.draws then (resultsIn i s).rt else (resultsIn i s).rs)
      else if r = i.rt then (resultsIn i s).rt else s.reg r := by
  simp only [execTarget, State.advancePc_reg, State.writeResults_reg, State.recordCr0_reg, State.recordCr0_draws]

/-- Two states that agree on the results, and on the draw where there is one, get the same RT and RC. -/
theorem execTarget_reg_congr {i : Instr} {s₁ s₂ : State} (hres : resultsIn i s₁ = resultsIn i s₂)
    (hdraw : i.rt = i.rc → s₁.draws = s₂.draws) :
    (execTarget i s₁).reg i.rt = (execTarget i s₂).reg i.rt ∧
      (execTarget i s₁).reg i.rc = (execTarget i s₂).reg i.rc := by
  simp only [execTarget_reg, hres]
  by_cases h : i.rt = i.rc <;> simp [h, hdraw]

/-- Settles O23: what is read decides the results, and the results decide what is written. -/
theorem everyInstructionReadsAndWritesItsList : Obligations.EveryInstructionReadsAndWritesItsList := by
  intro i s₁ s₂ t₁ t₂ ha hb hc hdraw h₁ h₂
  have hres : resultsIn i s₁ = resultsIn i s₂ := by
    unfold resultsIn
    rw [ha, hc]
    cases i with
    | maddedu => rw [show s₁.reg _ = s₂.reg _ from hb]
    | maddedus => rw [show s₁.reg _ = s₂.reg _ from hb]
    | divmod2du => rw [show s₁.reg _ = s₂.reg _ from hb]
    | dsld => exact (shiftResults_congr _ _ _ _ hb).1
    | dsrd => exact (shiftResults_congr _ _ _ _ hb).2
  obtain ⟨-, rfl⟩ := exec_eq_next h₁
  obtain ⟨-, rfl⟩ := exec_eq_next h₂
  obtain ⟨hrt, hrc⟩ := execTarget_reg_congr hres hdraw
  refine ⟨hrt, hrc, fun hr => ?_, execTarget_reg_other i s₁, execTarget_cr_of_not_records i s₁,
    execTarget_crField_ne i s₁⟩
  rw [execTarget_crField_zero i s₁ hr, execTarget_crField_zero i s₂ hr, hres]

/-! ### Renumbering (R18) -/

theorem renamedInstr_fields (p : Equiv.Perm Reg) (i : Instr) :
    (renamedInstr p i).rt = p i.rt ∧ (renamedInstr p i).ra = p i.ra ∧ (renamedInstr p i).rb = p i.rb ∧
      (renamedInstr p i).rc = p i.rc ∧ (renamedInstr p i).records = i.records := by
  cases i <;> exact ⟨rfl, rfl, rfl, rfl, rfl⟩

theorem resultsIn_renamed (p : Equiv.Perm Reg) (i : Instr) (s : State) :
    resultsIn (renamedInstr p i) (s.renamed p) = resultsIn i s := by
  obtain ⟨-, ha, hb, hc, -⟩ := renamedInstr_fields p i
  have hres : ∀ a b c, resultsOf (renamedInstr p i) a b c = resultsOf i a b c := by
    cases i <;> exact fun _ _ _ => rfl
  simp only [resultsIn, hres, ha, hb, hc, State.renamed_reg, Equiv.symm_apply_apply]

theorem execTarget_renamed (p : Equiv.Perm Reg) (i : Instr) (s : State) :
    execTarget (renamedInstr p i) (s.renamed p) = (execTarget i s).renamed p := by
  obtain ⟨ht, -, -, hc, hr⟩ := renamedInstr_fields p i
  refine State.eq_of_fields (fun r => ?_) ?_ ?_ ?_ ?_ ?_ ?_ ?_ ?_
  · have hmove : ∀ q, r = p q ↔ p.symm r = q := fun q => by rw [Equiv.symm_apply_eq]
    simp only [execTarget_reg, State.renamed_reg, State.renamed_draws, resultsIn_renamed, ht, hc, hmove,
      EmbeddingLike.apply_eq_iff_eq]
  · simp
  · simp [execTarget_cr, resultsIn_renamed, hr]
  · simp
  · simp
  · simp
  · simp
  · simp
  · simp [execTarget_draws, ht, hc]

/-- Settles O29: the wrap check does not look at the registers, and the target is renumbered with the state. -/
theorem noRegisterIsSpecial : Obligations.NoRegisterIsSpecial := by
  intro p i s
  rcases Nat.lt_or_ge (s.pc.toNat + 4) (2 ^ 64) with h | h
  · rw [exec_next i s h, exec_next _ (s.renamed p) (by simpa using h), execTarget_renamed]
  · rw [exec_refused i s h, exec_refused _ (s.renamed p) (by simpa using h)]

end Sys2Proof.Machine
end

section
/-! SUPPORT. The five instructions: each is completion, frame and word (said once for all) and its own result law. -/

namespace Sys2Proof.Machine

open Sys2Proof

/-- The parts of a result statement that are the same for every instruction: it completes, its two results stand in RT
and RC or one of them in the register both name, and the rest is the frame. -/
theorem exec_outcome (i : Instr) (s : State) (h : s.pc.toNat + 4 < 2 ^ 64) :
    ∃ t, exec i s = .next t ∧ (i.rt ≠ i.rc → t.reg i.rt = (resultsIn i s).rt ∧ t.reg i.rc = (resultsIn i s).rs) ∧
      (i.rt = i.rc → t.reg i.rc = (resultsIn i s).rt ∨ t.reg i.rc = (resultsIn i s).rs) ∧
      t.pc = s.pc + 4 ∧ (i.records = false → t.cr = s.cr) ∧
      (i.records = true → t.crField 0 = cr0Of (resultsIn i s) ∧ ∀ k : Fin 8, k ≠ 0 → t.crField k = s.crField k) ∧
      Frame i.rt i.rc s t :=
  ⟨execTarget i s, exec_next i s h, fun hne => ⟨execTarget_reg_rt i s hne, execTarget_reg_rc i s hne⟩,
    execTarget_reg_draw i s, execTarget_pc i s, execTarget_cr_of_not_records i s,
    fun hr => ⟨execTarget_crField_zero i s hr, execTarget_crField_ne i s⟩, execTarget_frame i s⟩

/-- Settles O31: the shared outcome, with the exact sum as its two results. -/
theorem maddeduResult : Obligations.MaddeduResult := by
  intro rt ra rb rc s h
  obtain ⟨t, hexec, hne, heq, hpc, hcr, -, hframe⟩ := exec_outcome (.maddedu rt ra rb rc) s h
  refine ⟨t, _, _, hexec, BitVec.isLt _, BitVec.isLt _, maddeduResults_value (s.reg ra) (s.reg rb) (s.reg rc),
    fun hr => ?_, fun hr => ?_, hpc, hcr rfl, hframe, fun x => ?_⟩
  · obtain ⟨ht, hs⟩ := hne hr
    exact ⟨congrArg BitVec.toNat ht, congrArg BitVec.toNat hs⟩
  · exact (heq hr).imp (congrArg BitVec.toNat) (congrArg BitVec.toNat)
  · exact ⟨fieldPO_encodeFields .., fieldXO6_encodeFields ..⟩

/-- Settles O32: the shared outcome, with the exact signed sum as its two results. -/
theorem maddedusResult : Obligations.MaddedusResult := by
  intro rt ra rb rc s h
  obtain ⟨t, hexec, hne, heq, hpc, hcr, -, hframe⟩ := exec_outcome (.maddedus rt ra rb rc) s h
  exact ⟨t, _, _, hexec, maddedusResults_value (s.reg ra) (s.reg rb) (s.reg rc), hne, heq, hpc, hcr rfl, hframe,
    fun x => ⟨fieldPO_encodeFields .., fieldXO6_encodeFields ..⟩⟩

/-- `divmod2du` without error: quotient times divisor plus remainder is the dividend (R67). -/
theorem divmod2duResults_value (a b c : Word) (h : a.toNat < b.toNat) :
    (divmod2duResults a b c).rt.toNat * b.toNat + (divmod2duResults a b c).rs.toNat = a.toNat * 2 ^ 64 + c.toNat ∧
      (divmod2duResults a b c).rs.toNat < b.toNat := by
  obtain ⟨hq, hr⟩ := divmod2duResults_quotient a b c h
  rw [hq, hr]
  exact ⟨Nat.div_add_mod' _ _, Nat.mod_lt _ (by omega)⟩

/-- Settles O33: the shared outcome, with quotient and remainder or the error pair as its two results. -/
theorem divmod2duResult : Obligations.Divmod2duResult := by
  intro rt ra rb rc s h
  obtain ⟨t, hexec, hne, heq, hpc, hcr, -, hframe⟩ := exec_outcome (.divmod2du rt ra rb rc) s h
  refine ⟨t, _, _, hexec, divmod2duResults_value (s.reg ra) (s.reg rb) (s.reg rc), fun herr => ?_,
    fun hr => ?_, fun hr => ?_, hpc, hcr rfl, hframe, fun x => ?_⟩
  · rw [divmod2duResults_error _ _ _ herr]
    exact ⟨rfl, rfl⟩
  · obtain ⟨ht, hs⟩ := hne hr
    exact ⟨congrArg BitVec.toNat ht, congrArg BitVec.toNat hs⟩
  · exact (heq hr).imp (congrArg BitVec.toNat) (congrArg BitVec.toNat)
  · exact ⟨fieldPO_encodeFields .., fieldXO6_encodeFields ..⟩

/-- Settles O34: the shared outcome, with the integer form of `dsld` as its two results. -/
theorem dsldResult : Obligations.DsldResult := by
  intro rt ra rb rc record s h
  obtain ⟨t, hexec, hne, heq, hpc, hcr, hrec, hframe⟩ := exec_outcome (.dsld rt ra rb rc record) s h
  refine ⟨t, _, _, hexec, ?_, hne, heq, hcr, fun hr => ?_, hpc, hframe, fun x => ?_⟩
  · rintro n rfl
    exact ⟨dsldResults_rt_toNat .., dsldResults_rs_toNat ..⟩
  · obtain ⟨hcr0, hothers⟩ := hrec hr
    exact ⟨hcr0 ▸ cr0Of_toNat _, hothers⟩
  · exact ⟨fieldPO_encodeFields .., fieldXO5_encodeFields .., fieldRc_encodeFields ..⟩

/-- Settles O35: the shared outcome, with the integer form of `dsrd` as its two results. -/
theorem dsrdResult : Obligations.DsrdResult := by
  intro rt ra rb rc record s h
  obtain ⟨t, hexec, hne, heq, hpc, hcr, hrec, hframe⟩ := exec_outcome (.dsrd rt ra rb rc record) s h
  refine ⟨t, _, _, hexec, ?_, hne, heq, hcr, fun hr => ?_, hpc, hframe, fun x => ?_⟩
  · rintro n rfl
    exact ⟨dsrdResults_rt_toNat .., dsrdResults_rs_toNat ..⟩
  · obtain ⟨hcr0, hothers⟩ := hrec hr
    exact ⟨hcr0 ▸ cr0Of_toNat _, hothers⟩
  · exact ⟨fieldPO_encodeFields .., fieldXO5_encodeFields .., fieldRc_encodeFields ..⟩

/-! ### Overflow (R78) -/

/-- `dsld` loses a one bit exactly where one of the top n bits of a is one. -/
theorem dsldResults_rs_ne_zero_iff (a b c : Word) :
    (dsldResults a b c).rs ≠ 0 ↔ ∃ j, 64 - b.toNat % 64 ≤ j ∧ j < 64 ∧ a.getLsbD j = true := by
  rw [word_ne_zero_iff]
  constructor
  · rintro ⟨j, hj, h⟩
    rw [dsldResults_rs_getLsbD a b c j hj, Bool.and_eq_true, decide_eq_true_eq] at h
    exact ⟨_, Nat.le_add_right _ _, by omega, h.2⟩
  · rintro ⟨j, hlow, hj, h⟩
    refine ⟨j - (64 - b.toNat % 64), by omega, ?_⟩
    rw [dsldResults_rs_getLsbD a b c _ (by omega), Nat.add_sub_cancel' hlow, h, Bool.and_true, decide_eq_true_eq]
    omega

/-- `dsrd` loses a one bit exactly where one of the low n bits of a is one. -/
theorem dsrdResults_rs_ne_zero_iff (a b c : Word) :
    (dsrdResults a b c).rs ≠ 0 ↔ ∃ j, j < b.toNat % 64 ∧ a.getLsbD j = true := by
  have hn : b.toNat % 64 < 64 := Nat.mod_lt _ (by omega)
  rw [word_ne_zero_iff]
  constructor
  · rintro ⟨j, hj, h⟩
    rw [dsrdResults_rs_getLsbD a b c j hj, Bool.and_eq_true, Bool.not_eq_true', decide_eq_false_iff_not] at h
    exact ⟨_, by omega, h.2⟩
  · rintro ⟨j, hj, h⟩
    refine ⟨64 - b.toNat % 64 + j, by omega, ?_⟩
    rw [dsrdResults_rs_getLsbD a b c _ (by omega), show b.toNat % 64 + (64 - b.toNat % 64 + j) - 64 = j by omega, h,
      Bool.and_true, Bool.not_eq_true', decide_eq_false_iff_not]
    omega

theorem exec_next_overflow {i : Instr} {s t : State} (h : exec i s = .next t) (hr : i.records = true) :
    t.cr.getLsbD 28 = decide ((resultsIn i s).rs ≠ 0) := by
  obtain ⟨-, rfl⟩ := exec_eq_next h
  exact execTarget_overflow i s hr

/-- Settles O36: the flag is "RS is nonzero", and RS holds the bits shifted out. -/
theorem overflowBitIsLostOneBit : Obligations.OverflowBitIsLostOneBit := by
  intro rt ra rb rc s t
  refine ⟨fun h => ?_, fun h => ?_⟩
  · have hov : t.cr.getLsbD 28 = decide ((dsldResults (s.reg ra) (s.reg rb) (s.reg rc)).rs ≠ 0) :=
      exec_next_overflow h rfl
    refine ⟨by rw [hov, decide_eq_true_iff, dsldResults_rs_ne_zero_iff], fun hz => ?_, (exec_next_frame h).xer⟩
    rw [hov, (shift_results_of_count_zero _ _ _ hz).1]
    rfl
  · have hov : t.cr.getLsbD 28 = decide ((dsrdResults (s.reg ra) (s.reg rb) (s.reg rc)).rs ≠ 0) :=
      exec_next_overflow h rfl
    refine ⟨by rw [hov, decide_eq_true_iff, dsrdResults_rs_ne_zero_iff], fun hz => ?_, (exec_next_frame h).xer⟩
    rw [hov, (shift_results_of_count_zero _ _ _ hz).2]
    rfl

/-! ### Multiplication and division undo each other (R69) -/

/-- Dividing the two results of `maddedu` by the multiplier gives the other two operands back. -/
theorem divmod2duResults_maddeduResults (a b c : Word) (h : c.toNat < b.toNat) :
    divmod2duResults (maddeduResults a b c).rs b (maddeduResults a b c).rt = { rt := a, rs := c } := by
  have hvalue := maddeduResults_value a b c
  have hhigh : (maddeduResults a b c).rs.toNat < b.toNat := by
    by_contra hge
    have hmul : (a.toNat + 1) * b.toNat ≤ 2 ^ 64 * b.toNat := Nat.mul_le_mul_right _ a.isLt
    rw [Nat.add_one_mul] at hmul
    omega
  obtain ⟨hq, hr⟩ := divmod2duResults_quotient _ b (maddeduResults a b c).rt hhigh
  have hunique : (a.toNat * b.toNat + c.toNat) / b.toNat = a.toNat ∧ (a.toNat * b.toNat + c.toNat) % b.toNat = c.toNat :=
    (Nat.div_mod_unique (by omega)).mpr ⟨by rw [Nat.mul_comm, Nat.add_comm], h⟩
  rw [hvalue] at hq hr
  exact results_eq (BitVec.eq_of_toNat_eq (hq.trans hunique.1)) (BitVec.eq_of_toNat_eq (hr.trans hunique.2))

/-- Multiplying the two results of `divmod2du` back gives the dividend. -/
theorem maddeduResults_divmod2duResults (a b c : Word) (h : a.toNat < b.toNat) :
    maddeduResults (divmod2duResults a b c).rt b (divmod2duResults a b c).rs = { rt := c, rs := a } := by
  have hvalue := maddeduResults_value (divmod2duResults a b c).rt b (divmod2duResults a b c).rs
  rw [(divmod2duResults_value a b c h).1] at hvalue
  generalize maddeduResults (divmod2duResults a b c).rt b (divmod2duResults a b c).rs = v at hvalue ⊢
  have hlow : v.rt.toNat = c.toNat := by omega
  have hhigh : v.rs.toNat = a.toNat := by omega
  exact results_eq (BitVec.eq_of_toNat_eq hlow) (BitVec.eq_of_toNat_eq hhigh)

/-- Settles O41: the division reads the two results of the multiplication and the old multiplier. -/
theorem divmodUndoesMaddedu : Obligations.DivmodUndoesMaddedu := by
  intro rt ra rb rc rq s t u htc htb hcb hqt hlt hmul hdiv
  obtain ⟨hlow, hhigh⟩ : t.reg rt = (maddeduResults (s.reg ra) (s.reg rb) (s.reg rc)).rt ∧
      t.reg rc = (maddeduResults (s.reg ra) (s.reg rb) (s.reg rc)).rs := exec_next_reg hmul htc
  have hb : t.reg rb = s.reg rb := (exec_next_frame hmul).regs rb (Ne.symm htb) (Ne.symm hcb)
  obtain ⟨hq, hr⟩ : u.reg rq = (divmod2duResults (t.reg rc) (t.reg rb) (t.reg rt)).rt ∧
      u.reg rt = (divmod2duResults (t.reg rc) (t.reg rb) (t.reg rt)).rs := exec_next_reg hdiv hqt
  rw [hq, hr, hlow, hhigh, hb, divmod2duResults_maddeduResults _ _ _ hlt]
  exact ⟨rfl, rfl⟩

/-- Settles O42: the multiplication reads quotient and remainder and the old divisor. -/
theorem maddeduUndoesDivmod : Obligations.MaddeduUndoesDivmod := by
  intro rt ra rb rc rl s t u htc htb hcb hlc hlt hdiv hmul
  obtain ⟨hq, hr⟩ : t.reg rt = (divmod2duResults (s.reg ra) (s.reg rb) (s.reg rc)).rt ∧
      t.reg rc = (divmod2duResults (s.reg ra) (s.reg rb) (s.reg rc)).rs := exec_next_reg hdiv htc
  have hb : t.reg rb = s.reg rb := (exec_next_frame hdiv).regs rb (Ne.symm htb) (Ne.symm hcb)
  obtain ⟨hlow, hhigh⟩ : u.reg rl = (maddeduResults (t.reg rt) (t.reg rb) (t.reg rc)).rt ∧
      u.reg rc = (maddeduResults (t.reg rt) (t.reg rb) (t.reg rc)).rs := exec_next_reg hmul hlc
  rw [hlow, hhigh, hq, hr, hb, maddeduResults_divmod2duResults _ _ _ hlt]
  exact ⟨rfl, rfl⟩

end Sys2Proof.Machine
end

section
/-! SUPPORT. Chains over big integers (R63, R66, R69, R74, R77). A chain computes, limb by limb, a recursion on words
(`chainLimbs`, `chainCarry`); the machine's part and the arithmetic part of each law meet there. -/

namespace Sys2Proof.Machine

open Sys2Proof

/-! ### The recursion on words -/

/-- The RT values of a chain whose links compute `f limb carry` and hand the RS value on as the next carry. -/
def chainLimbs (f : Word → Word → Results) : Word → List Word → List Word
  | _, [] => []
  | carry, v :: vs => (f v carry).rt :: chainLimbs f (f v carry).rs vs

/-- The carry after the last link. -/
def chainCarry (f : Word → Word → Results) : Word → List Word → Word
  | carry, [] => carry
  | carry, v :: vs => chainCarry f (f v carry).rs vs

theorem chainLimbs_length (f : Word → Word → Results) (carry : Word) (vs : List Word) :
    (chainLimbs f carry vs).length = vs.length := by
  induction vs generalizing carry with
  | nil => rfl
  | cons v vs ih => rw [chainLimbs, List.length_cons, ih, List.length_cons]

/-! ### Chains through one carry register -/

/-- `mk` makes of each link an instruction of one chain: the same RB and RC, and, once x[RB] is `b`, results `f`. -/
def ChainLink {L : Type} (mk : L → Instr) (f : Word → Word → Results) (b : Word) (rb rc : Reg) : Prop :=
  ∀ l, (mk l).rb = rb ∧ (mk l).rc = rc ∧ ∀ a c, resultsOf (mk l) a b c = f a c

/-- What a chain with carry register `rc` whose links compute `f` does between `s` and `t`. -/
structure ChainRun {L : Type} (mk : L → Instr) (f : Word → Word → Results) (rc : Reg) (links : List L) (s t : State) :
    Prop where
  limbs : (links.map fun l => t.reg (mk l).rt) = chainLimbs f (s.reg rc) (links.map fun l => s.reg (mk l).ra)
  carry : t.reg rc = chainCarry f (s.reg rc) (links.map fun l => s.reg (mk l).ra)
  regs : ∀ r, r ≠ rc → (∀ l ∈ links, r ≠ (mk l).rt) → t.reg r = s.reg r
  pc : t.pc.toNat = s.pc.toNat + 4 * links.length
  xer : t.xer = s.xer
  cr : (∀ l ∈ links, (mk l).records = false) → t.cr = s.cr
  crField : ∀ k : Fin 8, k ≠ 0 → t.crField k = s.crField k

/-- The registers after one link. -/
theorem ChainLink.execTarget_reg {L : Type} {mk : L → Instr} {f : Word → Word → Results} {b : Word} {rb rc : Reg}
    (hmk : ChainLink mk f b rb rc) (l : L) (s : State) (hb : s.reg rb = b) (hne : (mk l).rt ≠ rc) :
    (execTarget (mk l) s).reg (mk l).rt = (f (s.reg (mk l).ra) (s.reg rc)).rt ∧
      (execTarget (mk l) s).reg rc = (f (s.reg (mk l).ra) (s.reg rc)).rs ∧
      ∀ r, r ≠ (mk l).rt → r ≠ rc → (execTarget (mk l) s).reg r = s.reg r := by
  obtain ⟨hrb, hrc, hres⟩ := hmk l
  have hresults : resultsIn (mk l) s = f (s.reg (mk l).ra) (s.reg rc) := by rw [resultsIn, hrb, hrc, hb, hres]
  subst hrc
  rw [← hresults]
  exact ⟨execTarget_reg_rt (mk l) s hne, execTarget_reg_rc (mk l) s hne, execTarget_reg_other (mk l) s⟩

/-- A chain completes and does what its links do one after the other. x[RB] must be `b` as long as there is a link
that reads it; the last one may overwrite it. -/
theorem execAll_chain {L : Type} {mk : L → Instr} {f : Word → Word → Results} {b : Word} {rb rc : Reg}
    (hmk : ChainLink mk f b rb rc) (links : List L) (s : State) (hb : links ≠ [] → s.reg rb = b)
    (hok : chainOk rb rc (links.map fun l => ((mk l).rt, (mk l).ra)) = true)
    (hpc : s.pc.toNat + 4 * links.length < 2 ^ 64) :
    ∃ t, execAll (links.map mk) s = .next t ∧ ChainRun mk f rc links s t := by
  induction links generalizing s with
  | nil => exact ⟨s, rfl, rfl, rfl, fun _ _ _ => rfl, rfl, rfl, fun _ => rfl, fun _ _ => rfl⟩
  | cons l links ih =>
    rw [List.length_cons] at hpc
    obtain ⟨hne, hfree, hok⟩ := chainOk_cons hok
    have hfree : ∀ m ∈ links, (mk l).rt ≠ (mk m).rt ∧ (mk l).rt ≠ (mk m).ra ∧ rc ≠ (mk m).ra ∧ (mk l).rt ≠ rb ∧
        rc ≠ rb := fun m hm => hfree ((mk m).rt, (mk m).ra) (List.mem_map_of_mem hm)
    obtain ⟨hlimb, hcarry, hother⟩ := hmk.execTarget_reg l s (hb (List.cons_ne_nil _ _)) hne
    have hsources : (links.map fun m => (execTarget (mk l) s).reg (mk m).ra) = links.map fun m => s.reg (mk m).ra :=
      List.map_congr_left fun m hm => by
        obtain ⟨-, hta, hca, -, -⟩ := hfree m hm
        exact hother (mk m).ra (Ne.symm hta) (Ne.symm hca)
    have hb' : links ≠ [] → (execTarget (mk l) s).reg rb = b := fun hnil => by
      obtain ⟨m, hm⟩ := List.exists_mem_of_ne_nil links hnil
      obtain ⟨-, -, -, htb, hcb⟩ := hfree m hm
      rw [hother rb (Ne.symm htb) (Ne.symm hcb), hb (List.cons_ne_nil _ _)]
    have hpc' : (execTarget (mk l) s).pc.toNat = s.pc.toNat + 4 := by
      rw [execTarget_pc, advancePc_toNat s (by omega)]
    obtain ⟨t, hrun, ht⟩ := ih (execTarget (mk l) s) hb' hok (by omega)
    refine ⟨t, by rw [List.map_cons, execAll_cons (by omega), hrun], ?_, ?_, ?_, ?_, ?_, ?_, ?_⟩
    · rw [List.map_cons, List.map_cons, chainLimbs, ht.limbs, hcarry, hsources,
        ht.regs (mk l).rt hne fun m hm => (hfree m hm).1, hlimb]
    · rw [List.map_cons, chainCarry, ht.carry, hcarry, hsources]
    · intro r hr hlinks
      rw [ht.regs r hr fun m hm => hlinks m (List.mem_cons_of_mem l hm), hother r (hlinks l List.mem_cons_self) hr]
    · rw [ht.pc, hpc', List.length_cons]
      omega
    · rw [ht.xer, execTarget_xer]
    · intro hrec
      rw [ht.cr fun m hm => hrec m (List.mem_cons_of_mem l hm),
        execTarget_cr_of_not_records (mk l) s (hrec l List.mem_cons_self)]
    · intro k hk
      rw [ht.crField k hk, execTarget_crField_ne (mk l) s k hk]

/-! ### Multiplication chains (R63, R66) -/

/-- One more limb: the carry equation of the first limb and that of the others make that of the whole. -/
theorem limbs_carry_cons {rt rs v k c limbs carry rest : Int} {n : Nat} (hfirst : rs * 2 ^ 64 + rt = v * k + c)
    (hrest : limbs + carry * 2 ^ (64 * n) = rest * k + rs) :
    rt + 2 ^ 64 * limbs + carry * 2 ^ (64 * (n + 1)) = (v + 2 ^ 64 * rest) * k + c := by
  rw [Nat.mul_add_one, pow_add]
  linear_combination hfirst + 2 ^ 64 * hrest

theorem maddedu_chain_value (b c : Word) (vs : List Word) :
    limbsValue (chainLimbs (fun a c => maddeduResults a b c) c vs) +
        (chainCarry (fun a c => maddeduResults a b c) c vs).toNat * 2 ^ (64 * vs.length) =
      limbsValue vs * b.toNat + c.toNat := by
  induction vs generalizing c with
  | nil => simp [chainLimbs, chainCarry, limbsValue]
  | cons v vs ih =>
    have hfirst := maddeduResults_value v b c
    have hrest := ih (maddeduResults v b c).rs
    simp only [chainLimbs, chainCarry, limbsValue, List.length_cons]
    zify at hfirst hrest ⊢
    exact limbs_carry_cons hfirst hrest

theorem maddedus_chain_value (b c : Word) (vs : List Word) :
    (limbsValue (chainLimbs (fun a c => maddedusResults a b c) c vs) : Int) +
        (chainCarry (fun a c => maddedusResults a b c) c vs).toInt * 2 ^ (64 * vs.length) =
      limbsValue vs * b.toInt + c.toInt := by
  induction vs generalizing c with
  | nil => simp [chainLimbs, chainCarry, limbsValue]
  | cons v vs ih =>
    have hfirst := maddedusResults_value v b c
    have hrest := ih (maddedusResults v b c).rs
    simp only [chainLimbs, chainCarry, limbsValue, List.length_cons]
    push_cast
    exact limbs_carry_cons hfirst hrest

/-- Settles O48: the recursion a `maddedu` chain computes is multiplication by one limb. -/
theorem maddeduChainMultiplies : Obligations.MaddeduChainMultiplies := by
  intro rb rc links s hok hpc
  have hmk : ChainLink (fun l : Reg × Reg => .maddedu l.1 l.2 rb rc) (fun a c => maddeduResults a (s.reg rb) c)
      (s.reg rb) rb rc := fun _ => ⟨rfl, rfl, fun _ _ => rfl⟩
  obtain ⟨t, hrun, ht⟩ := execAll_chain hmk links s (fun _ => rfl) (by simpa [Instr.rt, Instr.ra] using hok) hpc
  have hvalue := maddedu_chain_value (s.reg rb) (s.reg rc) (links.map fun l => s.reg l.2)
  have hlimbs : (links.map fun l => t.reg l.1) = chainLimbs _ (s.reg rc) (links.map fun l => s.reg l.2) := ht.limbs
  have hcarry : t.reg rc = chainCarry _ (s.reg rc) (links.map fun l => s.reg l.2) := ht.carry
  rw [← hlimbs, ← hcarry, List.length_map] at hvalue
  exact ⟨t, hrun, hvalue, ht.regs, ht.pc, ht.cr fun _ _ => rfl, ht.xer⟩

/-- Settles O49: the recursion a `maddedus` chain computes is multiplication by one signed limb. -/
theorem maddedusChainMultipliesSigned : Obligations.MaddedusChainMultipliesSigned := by
  intro rb rc links s hok hpc
  have hmk : ChainLink (fun l : Reg × Reg => .maddedus l.1 l.2 rb rc) (fun a c => maddedusResults a (s.reg rb) c)
      (s.reg rb) rb rc := fun _ => ⟨rfl, rfl, fun _ _ => rfl⟩
  obtain ⟨t, hrun, ht⟩ := execAll_chain hmk links s (fun _ => rfl) (by simpa [Instr.rt, Instr.ra] using hok) hpc
  have hvalue := maddedus_chain_value (s.reg rb) (s.reg rc) (links.map fun l => s.reg l.2)
  have hlimbs : (links.map fun l => t.reg l.1) = chainLimbs _ (s.reg rc) (links.map fun l => s.reg l.2) := ht.limbs
  have hcarry : t.reg rc = chainCarry _ (s.reg rc) (links.map fun l => s.reg l.2) := ht.carry
  rw [← hlimbs, ← hcarry, List.length_map] at hvalue
  exact ⟨t, hrun, hvalue, ht.regs, ht.pc, ht.cr fun _ _ => rfl, ht.xer⟩

/-! ### Shift chains (R74, R77) -/

/-- A left shift brings in a carry below 2^n; the carries it hands on stay below 2^n. -/
theorem dsld_chain_value_of_lt (b c : Word) (vs : List Word) (hc : c.toNat < 2 ^ (b.toNat % 64)) :
    limbsValue (chainLimbs (fun a c => dsldResults a b c) c vs) +
        (chainCarry (fun a c => dsldResults a b c) c vs).toNat * 2 ^ (64 * vs.length) =
      limbsValue vs * 2 ^ (b.toNat % 64) + c.toNat ∧
    (chainCarry (fun a c => dsldResults a b c) c vs).toNat < 2 ^ (b.toNat % 64) := by
  induction vs generalizing c with
  | nil => exact ⟨by simp [chainLimbs, chainCarry, limbsValue], hc⟩
  | cons v vs ih =>
    have hfirst := dsldResults_value v b c
    rw [Nat.mod_eq_of_lt hc] at hfirst
    obtain ⟨hrest, hlt⟩ := ih (dsldResults v b c).rs (dsldResults_rs_lt v b c)
    refine ⟨?_, hlt⟩
    simp only [chainLimbs, chainCarry, limbsValue, List.length_cons]
    zify at hfirst hrest ⊢
    exact limbs_carry_cons hfirst hrest

/-- Only the low n bits of the first carry enter, and the later ones are below 2^n already. -/
theorem dsld_chain_value (b c : Word) {vs : List Word} (hvs : vs ≠ []) :
    limbsValue (chainLimbs (fun a c => dsldResults a b c) c vs) +
        (chainCarry (fun a c => dsldResults a b c) c vs).toNat * 2 ^ (64 * vs.length) =
      limbsValue vs * 2 ^ (b.toNat % 64) + c.toNat % 2 ^ (b.toNat % 64) ∧
    (chainCarry (fun a c => dsldResults a b c) c vs).toNat < 2 ^ (b.toNat % 64) := by
  cases vs with
  | nil => exact absurd rfl hvs
  | cons v vs =>
    have hfirst := dsldResults_value v b c
    obtain ⟨hrest, hlt⟩ := dsld_chain_value_of_lt b (dsldResults v b c).rs vs (dsldResults_rs_lt v b c)
    refine ⟨?_, hlt⟩
    simp only [chainLimbs, chainCarry, limbsValue, List.length_cons]
    zify at hfirst hrest ⊢
    exact limbs_carry_cons hfirst hrest

/-- Settles O50: the recursion a `dsld` chain computes is a left shift. -/
theorem dsldChainShiftsLeft : Obligations.DsldChainShiftsLeft := by
  rintro rb rc links s n rfl hne hok hpc
  have hmk : ChainLink (fun l : (Reg × Reg) × Bool => .dsld l.1.1 l.1.2 rb rc l.2)
      (fun a c => dsldResults a (s.reg rb) c) (s.reg rb) rb rc := fun _ => ⟨rfl, rfl, fun _ _ => rfl⟩
  obtain ⟨t, hrun, ht⟩ := execAll_chain hmk links s (fun _ => rfl) hok hpc
  have hvs : (links.map fun l => s.reg l.1.2) ≠ [] := mt List.map_eq_nil_iff.mp hne
  obtain ⟨hvalue, hlt⟩ := dsld_chain_value (s.reg rb) (s.reg rc) hvs
  have hlimbs : (links.map fun l => t.reg l.1.1) = chainLimbs _ (s.reg rc) (links.map fun l => s.reg l.1.2) := ht.limbs
  have hcarry : t.reg rc = chainCarry _ (s.reg rc) (links.map fun l => s.reg l.1.2) := ht.carry
  rw [← hlimbs, ← hcarry, List.length_map] at hvalue
  rw [← hcarry] at hlt
  exact ⟨t, hrun, hvalue, hlt, ht.regs, ht.pc, ht.xer, ht.cr, ht.crField⟩

/-- The limbs of a right shift: RS is left-justified already, so the next limb takes it as it is. -/
theorem dsrd_chain_limbs (b c : Word) (vs : List Word) :
    (chainLimbs (fun a c => dsrdResults a b c) c vs).map BitVec.toNat =
      rightShiftedLimbs (b.toNat % 64) (c.toNat - c.toNat % 2 ^ (64 - b.toNat % 64)) vs := by
  induction vs generalizing c with
  | nil => rfl
  | cons v vs ih =>
    have hcarry : (dsrdResults v b c).rs.toNat - (dsrdResults v b c).rs.toNat % 2 ^ (64 - b.toNat % 64) =
        v.toNat % 2 ^ (b.toNat % 64) * 2 ^ (64 - b.toNat % 64) := by
      rw [dsrdResults_rs_toNat_eq_mul, Nat.mul_mod_left, Nat.sub_zero]
    rw [chainLimbs, List.map_cons, ih, hcarry, dsrdResults_rt_toNat, rightShiftedLimbs]

/-- The carry after a right shift: the low n bits of the last limb, left-justified. -/
theorem dsrd_chain_carry (b c v : Word) {vs : List Word} (hv : vs.getLast? = some v) :
    (chainCarry (fun a c => dsrdResults a b c) c vs).toNat =
      v.toNat % 2 ^ (b.toNat % 64) * 2 ^ (64 - b.toNat % 64) := by
  induction vs generalizing c with
  | nil => cases hv
  | cons w vs ih =>
    rw [chainCarry]
    cases vs with
    | nil =>
      cases hv
      exact dsrdResults_rs_toNat_eq_mul w b c
    | cons x vs => exact ih _ (by rwa [List.getLast?_cons_cons] at hv)

/-- Settles O51: the recursion a `dsrd` chain computes is a right shift, limb by limb. -/
theorem dsrdChainShiftsRight : Obligations.DsrdChainShiftsRight := by
  rintro rb rc links s n rfl hok hpc
  have hmk : ChainLink (fun l : (Reg × Reg) × Bool => .dsrd l.1.1 l.1.2 rb rc l.2)
      (fun a c => dsrdResults a (s.reg rb) c) (s.reg rb) rb rc := fun _ => ⟨rfl, rfl, fun _ _ => rfl⟩
  obtain ⟨t, hrun, ht⟩ := execAll_chain hmk links s (fun _ => rfl) hok hpc
  have hvalue := dsrd_chain_limbs (s.reg rb) (s.reg rc) (links.map fun l => s.reg l.1.2)
  have hlimbs : (links.map fun l => t.reg l.1.1) = chainLimbs _ (s.reg rc) (links.map fun l => s.reg l.1.2) := ht.limbs
  rw [← hlimbs, List.map_map] at hvalue
  refine ⟨t, hrun, hvalue, fun l hl => ?_, ht.regs, ht.pc, ht.xer, ht.cr, ht.crField⟩
  rw [ht.carry]
  exact dsrd_chain_carry _ _ _ (by rw [List.getLast?_map]; exact congrArg _ hl)

/-! ### Division chains (R69) -/

/-- What a division chain with divisor `b` and first remainder register `ra` does between `s` and `t`: the recursion
with the remainder as carry. -/
structure DivChainRun (b : Word) (ra : Reg) (links : List (Reg × Reg)) (s t : State) : Prop where
  limbs : (links.map fun l => t.reg l.1) =
    chainLimbs (fun c r => divmod2duResults r b c) (s.reg ra) (links.map fun l => s.reg l.2)
  carry : t.reg (divChainRem ra links) =
    chainCarry (fun c r => divmod2duResults r b c) (s.reg ra) (links.map fun l => s.reg l.2)
  regs : ∀ r, (∀ l ∈ links, r ≠ l.1 ∧ r ≠ l.2) → t.reg r = s.reg r
  pc : t.pc.toNat = s.pc.toNat + 4 * links.length
  xer : t.xer = s.xer
  cr : t.cr = s.cr

/-- A division chain completes; as in `execAll_chain`, its last link may overwrite the divisor. -/
theorem execAll_divChain {b : Word} {rb : Reg} (ra : Reg) (links : List (Reg × Reg)) (s : State)
    (hb : links ≠ [] → s.reg rb = b) (hok : divChainOk rb links = true)
    (hpc : s.pc.toNat + 4 * links.length < 2 ^ 64) :
    ∃ t, execAll (divChainOf ra rb links) s = .next t ∧ DivChainRun b ra links s t := by
  induction links generalizing ra s with
  | nil => exact ⟨s, rfl, rfl, rfl, fun _ _ => rfl, rfl, rfl, rfl⟩
  | cons l links ih =>
    rw [List.length_cons] at hpc
    obtain ⟨hne, hfree, hok⟩ := divChainOk_cons hok
    have hnext := exec_next (.divmod2du l.1 ra rb l.2) s (by omega)
    obtain ⟨hlimb, hrem⟩ := exec_next_reg hnext hne
    have hframe := exec_next_frame hnext
    have hpc' := exec_next_pc hnext
    have hcr := execTarget_cr_of_not_records (.divmod2du l.1 ra rb l.2) s rfl
    have hresults : resultsIn (.divmod2du l.1 ra rb l.2) s = divmod2duResults (s.reg ra) b (s.reg l.2) := by
      rw [← hb (List.cons_ne_nil _ _)]
      rfl
    rw [hresults] at hlimb hrem
    generalize hs' : execTarget (.divmod2du l.1 ra rb l.2) s = s' at *
    have hsources : (links.map fun m => s'.reg m.2) = links.map fun m => s.reg m.2 :=
      List.map_congr_left fun m hm => by
        obtain ⟨-, ht, hc, -, -⟩ := hfree m hm
        exact hframe.regs m.2 (Ne.symm ht) (Ne.symm hc)
    have hb' : links ≠ [] → s'.reg rb = b := fun hnil => by
      obtain ⟨m, hm⟩ := List.exists_mem_of_ne_nil links hnil
      obtain ⟨-, -, -, htb, hcb⟩ := hfree m hm
      exact (hframe.regs rb (Ne.symm htb) (Ne.symm hcb)).trans (hb (List.cons_ne_nil _ _))
    obtain ⟨t, hrun, ht⟩ := ih l.2 s' hb' hok (by omega)
    have hkept : t.reg l.1 = s'.reg l.1 := ht.regs l.1 fun m hm => ⟨(hfree m hm).1, (hfree m hm).2.1⟩
    refine ⟨t, by rw [divChainOf, execAll_cons (by omega), hs', hrun], ?_, ?_, ?_, ?_, ?_, ?_⟩
    · rw [List.map_cons, List.map_cons, chainLimbs, ht.limbs, hsources, hkept]
      exact congrArg₂ _ hlimb (congrArg (chainLimbs _ · _) hrem)
    · rw [List.map_cons, chainCarry, divChainRem, ht.carry, hsources]
      exact congrArg (chainCarry _ · _) hrem
    · intro r hr
      obtain ⟨hr1, hr2⟩ := hr l List.mem_cons_self
      rw [ht.regs r fun m hm => hr m (List.mem_cons_of_mem l hm), hframe.regs r hr1 hr2]
    · rw [ht.pc, hpc', List.length_cons]
      omega
    · rw [ht.xer, hframe.xer]
    · rw [ht.cr, hcr]

/-- Long division by one limb: each remainder is below the divisor, so no step takes the error branch. -/
theorem divmod_chain_value (b r : Word) (cs : List Word) (hr : r.toNat < b.toNat) :
    limbsBelow 0 (chainLimbs (fun c r => divmod2duResults r b c) r cs) * b.toNat +
        (chainCarry (fun c r => divmod2duResults r b c) r cs).toNat =
      limbsBelow r.toNat cs ∧
    (chainCarry (fun c r => divmod2duResults r b c) r cs).toNat < b.toNat := by
  induction cs generalizing r with
  | nil => exact ⟨by simp [chainLimbs, chainCarry, limbsBelow], hr⟩
  | cons c cs ih =>
    obtain ⟨hfirst, hlt⟩ := divmod2duResults_value r b c hr
    obtain ⟨hrest, hlast⟩ := ih (divmod2duResults r b c).rs hlt
    refine ⟨?_, hlast⟩
    simp only [chainLimbs, chainCarry, limbsBelow]
    rw [limbsBelow_acc (divmod2duResults r b c).rs.toNat] at hrest
    rw [limbsBelow_acc (0 * _ + _), limbsBelow_acc (r.toNat * _ + _), chainLimbs_length, ← hfirst]
    linear_combination hrest

/-- Settles O52: the recursion a `divmod2du` chain computes is long division by one limb. -/
theorem divmodChainDivides : Obligations.DivmodChainDivides := by
  intro ra rb links s hlt hok hpc
  obtain ⟨t, hrun, ht⟩ := execAll_divChain ra links s (fun _ => rfl) hok hpc
  have hvalue := divmod_chain_value (s.reg rb) (s.reg ra) (links.map fun l => s.reg l.2) hlt
  rw [← ht.limbs, ← ht.carry] at hvalue
  obtain ⟨hquotient, hrem⟩ := hvalue
  exact ⟨t, hrun, hquotient, hrem, ht.regs, ht.pc, ht.cr, ht.xer⟩

end Sys2Proof.Machine
end

section
/-! SUPPORT. Fetch, step, launch and run (20_memory.md, 60_exceptions.md, 70_reset_and_hazards.md). -/

namespace Sys2Proof.Machine

open Sys2Proof

/-! ### One step (R33, R54, R82, R96) -/

/-- A stop in the fetch of the bytes stops the fetch of the instruction. -/
theorem fetchInstr_of_stop {s : State} {stop : Stop} (h : fetchBytes s = .error stop) :
    fetchInstr s = .error stop := by
  simp only [fetchInstr, h]

/-- Bytes that are no instruction stop the fetch by the name of R54. -/
theorem fetchInstr_of_foreign {s : State} {bytes : List Byte} (hf : fetchBytes s = .ok bytes)
    (hd : decodeBytes s.config bytes = .error .notLs003Instruction) :
    fetchInstr s = .error (.refused .notLs003Instruction) := by
  simp only [fetchInstr, hf, hd]

theorem decodeBytes_four (c : Config) (b0 b1 b2 b3 : Byte) (rest : List Byte) :
    decodeBytes c (b0 :: b1 :: b2 :: b3 :: rest) =
      (decode c.xo (assembleWord c.byteOrder b0 b1 b2 b3)).map (·, rest) := by
  rw [decodeBytes]
  cases decode c.xo (assembleWord c.byteOrder b0 b1 b2 b3) <;> rfl

/-- The fetch of four bytes that are all there. -/
theorem fetchBytes_four {s : State} {b0 b1 b2 b3 : Byte} (ha : s.pc.toNat % 4 = 0)
    (hlow : s.progBase.toNat ≤ s.pc.toNat) (hhigh : s.pc.toNat + 4 ≤ s.progBase.toNat + 4 * s.progLen)
    (h0 : s.mem.read s.pc.toNat = some b0) (h1 : s.mem.read (s.pc.toNat + 1) = some b1)
    (h2 : s.mem.read (s.pc.toNat + 2) = some b2) (h3 : s.mem.read (s.pc.toNat + 3) = some b3) :
    fetchBytes s = .ok [b0, b1, b2, b3] :=
  fetchBytes_ok ha ((inText_iff s).mpr ⟨hlow, hhigh⟩) (Memory.readBytes_four _ _ h0 h1 h2 h3)

/-- Settles O11: fetch, decode, execute. -/
theorem stepRunsDecodedInstruction : Obligations.StepRunsDecodedInstruction := by
  intro s b0 b1 b2 b3 i ha hlow hhigh h0 h1 h2 h3 hd
  refine step_of_fetch (fetchInstr_of_bytes (fetchBytes_four ha hlow hhigh h0 h1 h2 h3) (rest := []) ?_)
  rw [decodeBytes_four, hd]
  rfl

/-- Settles O13: a word that decoded would be the word of an instruction. -/
theorem foreignWordIsRefused : Obligations.ForeignWordIsRefused := by
  intro s b0 b1 b2 b3 ha hlow hhigh h0 h1 h2 h3 hforeign
  refine step_of_stop_refused (fetchInstr_of_foreign (fetchBytes_four ha hlow hhigh h0 h1 h2 h3) ?_)
  rw [decodeBytes_four]
  cases hd : decode s.config.xo (assembleWord s.config.byteOrder b0 b1 b2 b3) with
  | ok i => exact absurd (encodeOfDecodeIsIdentity _ _ i hd) (hforeign i)
  | error e => rw [decode_eq_error hd]; rfl

theorem step_of_ended {s : State} (ha : s.pc.toNat % 4 = 0) (he : s.pc.toNat = s.textEnd) :
    step s = .fault .endOfRun :=
  step_of_stop_fault (fetchInstr_of_stop (fetchBytes_ended ha he))

/-- Settles O12: the three tests of fetch, in their order. -/
theorem fetchStopsOutsideTheText : Obligations.FetchStopsOutsideTheText := by
  intro s
  refine ⟨fun ha => ?_, step_of_ended, fun ha he hout => ?_⟩
  · exact step_of_stop_refused (fetchInstr_of_stop (fetchBytes_misaligned ha))
  · have ht : s.inText = false := by
      rw [Bool.eq_false_iff, ne_eq, inText_iff, State.textEnd]
      omega
    exact step_of_stop_refused (fetchInstr_of_stop (fetchBytes_outside ha he ht))

/-! ### Launch (R32, R35, R38, R84) -/

theorem progMapAdmitted_iff (base : Word) (len : Nat) :
    progMapAdmitted base len = true ↔ base.toNat % 4 = 0 ∧ base.toNat + 4 * len ≤ 2 ^ 64 := by
  simp [progMapAdmitted]

theorem progMapPremise_iff (base : Word) (len : Nat) :
    progMapPremise base len = true ↔ base.toNat % 4 = 0 ∧ base.toNat + 4 * len < 2 ^ 64 := by
  simp [progMapPremise]

theorem Config.wellFormed_iff (c : Config) : c.wellFormed = true ↔ c.xo.patterns.Nodup :=
  XoParams.wellFormed_iff c.xo

/-- A launch inside the scope and at an aligned pc is decided by the premises of R38 and R50. -/
theorem launch_eq_of_scope {q : LaunchRequest} (hmode : q.mode = .bits64) (hsv : q.svp64Prefix = false)
    (ha : q.pc.toNat % 4 = 0) :
    launch q = if progMapAdmitted q.progBase q.program.length && q.config.wellFormed then .next q.state
      else .refused .launchPremise := by
  rw [launch, if_neg (by simp [hmode, hsv]), if_neg (by omega)]

/-- Settles O14: the launch checks one after the other. -/
theorem launchRefusals : Obligations.LaunchRefusals := by
  intro q
  refine ⟨fun h => by rw [launch, if_pos h], fun hmode hsv ha => ?_, fun hmode hsv ha hpremise => ?_⟩
  · rw [launch, if_neg (by simp [hmode, hsv]), if_pos ha]
  · rw [launch_eq_of_scope hmode hsv ha, if_neg]
    rw [Bool.and_eq_true, progMapAdmitted_iff, Config.wellFormed_iff]
    rintro ⟨⟨hbase, hend⟩, hxo⟩
    rcases hpremise with h | h | h
    · exact h hbase
    · omega
    · exact h hxo

theorem LaunchRequest.state_mem (q : LaunchRequest) :
    q.state.mem = Memory.load [] q.progBase.toNat (textBytes q.config.byteOrder q.program) := rfl

/-- The launch state holds every byte of the program's text (R38). -/
theorem LaunchRequest.state_read_isSome (q : LaunchRequest) (hend : q.progBase.toNat + 4 * q.program.length ≤ 2 ^ 64)
    {k : Nat} (hk : k < 4 * q.program.length) : (q.state.mem.read (q.progBase.toNat + k)).isSome = true := by
  have hlen := textBytes_length q.config.byteOrder q.program
  rw [LaunchRequest.state_mem, Memory.read_load Memory.wf_nil _ _ _ (by omega) (by omega)]
  rfl

/-- The launch state holds the k-th word of the program at its k-th fetch address (R34, R38). -/
theorem LaunchRequest.state_readBytes (q : LaunchRequest) (hend : q.progBase.toNat + 4 * q.program.length ≤ 2 ^ 64)
    {k : Nat} (hk : k < q.program.length) :
    q.state.mem.readBytes (q.progBase.toNat + 4 * k) 4 = some (wordBytes q.config.byteOrder q.program[k]) := by
  have hlen := textBytes_length q.config.byteOrder q.program
  rw [LaunchRequest.state_mem, Memory.readBytes_load Memory.wf_nil _ _ _ _ (by omega) (by omega),
    textBytes_word q.config.byteOrder q.program k hk]

/-- A launch at `prog_base` that meets the premises of R38 and R50 establishes the invariant. -/
theorem LaunchRequest.state_inv {q : LaunchRequest} (hpc : q.pc = q.progBase) (hxo : q.config.xo.patterns.Nodup)
    (hbase : q.progBase.toNat % 4 = 0) (hend : q.progBase.toNat + 4 * q.program.length < 2 ^ 64) : q.state.Inv := by
  have hpc' : q.state.pc = q.progBase := hpc
  refine ⟨by rwa [hpc'], (progMapPremise_iff _ _).mpr ⟨hbase, hend⟩, ?_, ?_, Memory.load_wf Memory.wf_nil _ _,
    fun k hk => q.state_read_isSome (Nat.le_of_lt hend) hk, (Config.wellFormed_iff _).mpr hxo⟩
  · rw [hpc']
    exact Nat.le_refl _
  · rw [hpc']
    exact Nat.le_add_right _ _

/-- Settles O15: the launch state keeps what was supplied, and its memory is one load into nothing. -/
theorem launchPlacesProgram : Obligations.LaunchPlacesProgram := by
  intro q hmode hsv hpc hxo hbase hend
  refine ⟨q.state, ?_, rfl, rfl, rfl, rfl, rfl, rfl, rfl, LaunchRequest.state_inv hpc hxo hbase hend,
    fun k hk => q.state_readBytes (Nat.le_of_lt hend) hk⟩
  rw [launch_eq_of_scope hmode hsv (by rwa [hpc]), if_pos]
  rw [Bool.and_eq_true, progMapAdmitted_iff, Config.wellFormed_iff]
  exact ⟨⟨hbase, Nat.le_of_lt hend⟩, hxo⟩

/-! ### The invariant -/

/-- Settles O16: the empty program at address 0, evaluated. -/
theorem resetMeetsInvariant : Obligations.ResetMeetsInvariant := by
  unfold Obligations.ResetMeetsInvariant
  decide

theorem fetchInstr_pc {s : State} {i : Instr} (h : fetchInstr s = .ok i) :
    s.progBase.toNat ≤ s.pc.toNat ∧ s.pc.toNat + 4 ≤ s.textEnd := by
  obtain ⟨bytes, rest, hf, -⟩ := fetchInstr_eq_ok h
  obtain ⟨-, ht, -⟩ := fetchBytes_eq_ok hf
  exact (inText_iff s).mp ht

/-- Settles O17: a step moves the pc by 4 inside the text and leaves everything else the invariant speaks of. -/
theorem stepKeepsInvariant : Obligations.StepKeepsInvariant := by
  rintro s t ⟨ha, hmap, hlow, hhigh, hwf, htext, hxo⟩ h
  obtain ⟨i, hf, hi⟩ := step_eq_next h
  obtain ⟨-, hroom⟩ := fetchInstr_pc hf
  have hpc := exec_next_pc hi
  have hframe := exec_next_frame hi
  have hmem : t.mem = s.mem := by
    rw [(exec_eq_next hi).2, execTarget_mem]
  have hend : t.textEnd = s.textEnd := by rw [State.textEnd, hframe.progBase, hframe.progLen, State.textEnd]
  rw [State.Inv, hmem, hend, hframe.progBase, hframe.progLen, hframe.config]
  exact ⟨by omega, hmap, by omega, by omega, hwf, htext, hxo⟩

/-- Under the invariant the end lies below 2^64, and a pc that is not there has a whole word of the text before it. -/
theorem State.Inv.pc_room {s : State} (hs : s.Inv) :
    s.textEnd < 2 ^ 64 ∧ (s.pc.toNat ≠ s.textEnd → s.pc.toNat + 4 ≤ s.textEnd) := by
  obtain ⟨ha, hmap, hlow, hhigh, -, -, -⟩ := hs
  rw [progMapPremise_iff] at hmap
  unfold State.textEnd at *
  omega

/-- Under the invariant the four bytes at a pc before the end of the text are there. -/
theorem State.Inv.exists_fetchBytes_eq {s : State} (hs : s.Inv) (hne : s.pc.toNat ≠ s.textEnd) :
    ∃ b0 b1 b2 b3, fetchBytes s = .ok [b0, b1, b2, b3] := by
  have hroom := hs.pc_room.2 hne
  obtain ⟨ha, -, hlow, -, -, htext, -⟩ := hs
  have hread : ∀ k < 4, ∃ b, s.mem.read (s.pc.toNat + k) = some b := fun k hk => by
    have := htext (s.pc.toNat - s.progBase.toNat + k) (by unfold State.textEnd at hroom; omega)
    rw [show s.progBase.toNat + (s.pc.toNat - s.progBase.toNat + k) = s.pc.toNat + k by omega] at this
    exact Option.isSome_iff_exists.mp this
  obtain ⟨b0, h0⟩ := hread 0 (by omega)
  obtain ⟨b1, h1⟩ := hread 1 (by omega)
  obtain ⟨b2, h2⟩ := hread 2 (by omega)
  obtain ⟨b3, h3⟩ := hread 3 (by omega)
  exact ⟨b0, b1, b2, b3, fetchBytes_four ha hlow hroom h0 h1 h2 h3⟩

/-- Under the invariant, before the end of the text, a step completes or meets a foreign word. -/
theorem State.Inv.step_outcome {s : State} (hs : s.Inv) (hne : s.pc.toNat ≠ s.textEnd) :
    (∃ t, step s = .next t) ∨ step s = .refused .notLs003Instruction := by
  obtain ⟨b0, b1, b2, b3, hf⟩ := hs.exists_fetchBytes_eq hne
  have hd := decodeBytes_four s.config b0 b1 b2 b3 []
  cases hw : decode s.config.xo (assembleWord s.config.byteOrder b0 b1 b2 b3) with
  | ok i =>
    rw [hw] at hd
    obtain ⟨hend, hroom⟩ := hs.pc_room
    have := hroom hne
    exact .inl ⟨_, (step_of_fetch (fetchInstr_of_bytes hf hd)).trans (exec_next i s (by omega))⟩
  | error e =>
    rw [hw, decode_eq_error hw] at hd
    exact .inr (step_of_stop_refused (fetchInstr_of_foreign hf hd))

/-- Settles O18: the end of the text, and before it a word that decodes or does not. -/
theorem onlyForeignWordsAreRefused : Obligations.OnlyForeignWordsAreRefused := by
  intro s hs
  by_cases he : s.pc.toNat = s.textEnd
  · have hstep := step_of_ended hs.1 he
    exact ⟨.inr (.inl hstep), iff_of_true hstep he⟩
  · rcases hs.step_outcome he with ⟨t, ht⟩ | hr
    · exact ⟨.inl ⟨t, ht⟩, iff_of_false (by rw [ht]; nofun) he⟩
    · exact ⟨.inr (.inr hr), iff_of_false (by rw [hr]; nofun) he⟩

/-! ### The straight-line run (R96) -/

/-- A step moves the word that was k+1 words ahead to k words ahead. -/
theorem fetchInstr_after_step {s t : State} (h : step s = .next t) (k : Nat) :
    fetchInstr { t with pc := t.pc + BitVec.ofNat 64 (4 * k) } =
      fetchInstr { s with pc := s.pc + BitVec.ofNat 64 (4 * (k + 1)) } := by
  obtain ⟨i, -, hi⟩ := step_eq_next h
  obtain ⟨-, rfl⟩ := exec_eq_next hi
  refine fetchInstr_congr ?_ (execTarget_progBase i s) (execTarget_progLen i s) (execTarget_mem i s)
    (execTarget_config i s)
  rw [execTarget_pc, BitVec.add_assoc]
  refine congrArg (s.pc + ·) ?_
  rw [Nat.mul_add_one, Nat.add_comm, BitVec.ofNat_add]
  rfl

/-- Settles O19, by induction on the number of words that remain. -/
theorem straightLineRunEnds : Obligations.StraightLineRunEnds := by
  intro s n hs hlen hwords
  induction n generalizing s with
  | zero =>
    have he : s.pc.toNat = s.textEnd := hlen
    exact ⟨⟨s, run_zero s, he, step_of_ended hs.1 he⟩, fun m hm => absurd hm (Nat.not_lt_zero m)⟩
  | succ n ih =>
    have hnotFinal : s.pc.toNat ≠ s.textEnd := by
      unfold State.textEnd
      omega
    obtain ⟨i, hi⟩ := hwords 0 (Nat.succ_pos n)
    have hfetch : fetchInstr s = .ok i := by
      rw [← hi]
      exact fetchInstr_congr (BitVec.add_zero s.pc).symm rfl rfl rfl rfl
    have hroom := fetchInstr_pc hfetch
    have hstep : step s = .next (execTarget i s) :=
      (step_of_fetch hfetch).trans (exec_next i s (by have := hs.pc_room.1; omega))
    obtain ⟨⟨t, hrun, hfinal, hstop⟩, hbefore⟩ := ih (execTarget i s) (stepKeepsInvariant s _ hs hstep)
      (by rw [exec_next_pc ((step_of_fetch hfetch).symm.trans hstep), execTarget_progBase, execTarget_progLen]; omega)
      (fun k hk => by
        rw [fetchInstr_after_step hstep]
        exact hwords (k + 1) (Nat.succ_lt_succ hk))
    refine ⟨⟨t, (run_succ_next hstep).trans hrun, hfinal, hstop⟩, fun m hm => ?_⟩
    cases m with
    | zero => exact ⟨s, run_zero s, hnotFinal⟩
    | succ m =>
      obtain ⟨u, hu, hnot⟩ := hbefore m (Nat.lt_of_succ_lt_succ hm)
      exact ⟨u, (run_succ_next hstep).trans hu, hnot⟩

end Sys2Proof.Machine
end

section
/-! SUPPORT. A source line read back (30_encoding.md R57): the reader's passes over the line, one lemma for each. -/

namespace Sys2Proof.Machine

open Sys2Proof

/-- The operands of an instruction as a source line writes them, with the blank before the first and `b₁`, `b₂`, `b₃`
after the commas. -/
def operandsText (i : Instr) (b₁ b₂ b₃ : List Char) : List Char :=
  ([' '] ++ regText i.rt) ++ ',' :: ((b₁ ++ regText i.ra) ++ ',' :: ((b₂ ++ regText i.rb) ++ ',' :: (b₃ ++ regText i.rc)))

theorem assemblyText_eq_operandsText (i : Instr) : assemblyText i = mnemonicText i ++ operandsText i [] [] [] := by
  simp [assemblyText, operandsText]

/-- An operand behind blanks: no comma, no comment. -/
theorem blanks_regText_chars {b : List Char} (hb : ∀ c ∈ b, isBlank c = true) (r : Reg) :
    ∀ c ∈ b ++ regText r, c ≠ ',' ∧ c ≠ '#' := by
  intro c hc
  rcases List.mem_append.mp hc with h | h
  · exact isBlank_chars (hb c h)
  · obtain ⟨hcomma, hhash, -⟩ := regText_chars r c h
    exact ⟨hcomma, hhash⟩

theorem isBlank_space : ∀ c ∈ [' '], isBlank c = true := by simp [isBlank]

/-- An instruction begins and ends with no blank. -/
theorem trim_instruction (i : Instr) (b₁ b₂ b₃ : List Char) {bl : List Char} (hbl : ∀ c ∈ bl, isBlank c = true) :
    (trimEnd ((mnemonicText i ++ operandsText i b₁ b₂ b₃) ++ bl)).dropWhile isBlank =
      mnemonicText i ++ operandsText i b₁ b₂ b₃ := by
  obtain ⟨c, cs, hlast, hc⟩ := regText_last i.rc
  obtain ⟨d, ds, hhead⟩ := mnemonicText_head i
  have hd : isBlank d = false := (mnemonicText_chars i d (by simp [hhead])).2
  have hrev : ∃ cs', (mnemonicText i ++ operandsText i b₁ b₂ b₃).reverse = c :: cs' := by
    simp [operandsText, hlast]
  obtain ⟨cs', hrev⟩ := hrev
  rw [trimEnd_append _ bl hbl c cs' hrev hc, hhead, List.cons_append, List.dropWhile_cons_of_neg (by simp [hd])]

/-- The first blank divides the mnemonic from the operands. -/
theorem span_instruction (i : Instr) (b₁ b₂ b₃ : List Char) :
    (mnemonicText i ++ operandsText i b₁ b₂ b₃).takeWhile (!isBlank ·) = mnemonicText i ∧
      (mnemonicText i ++ operandsText i b₁ b₂ b₃).dropWhile (!isBlank ·) = operandsText i b₁ b₂ b₃ := by
  have hmn : ∀ c ∈ mnemonicText i, (!isBlank c) = true := fun c hc => by simp [(mnemonicText_chars i c hc).2]
  have hop : ∀ c, (operandsText i b₁ b₂ b₃).head? = some c → (!isBlank c) = false := by
    intro c hc
    cases hc
    rfl
  exact ⟨takeWhile_exact _ _ _ hmn hop, dropWhile_exact _ _ _ hmn hop⟩

section

variable {b₁ b₂ b₃ : List Char} (h₁ : ∀ c ∈ b₁, isBlank c = true) (h₂ : ∀ c ∈ b₂, isBlank c = true)
  (h₃ : ∀ c ∈ b₃, isBlank c = true)

include h₁ h₂ h₃

/-- No comment begins in an instruction. -/
theorem instruction_no_comment (i : Instr) : ∀ c ∈ mnemonicText i ++ operandsText i b₁ b₂ b₃, c ≠ '#' := by
  have hoperand : ∀ {b : List Char}, (∀ c ∈ b, isBlank c = true) → ∀ r, ∀ c ∈ b ++ regText r, c ≠ '#' :=
    fun hb r c hc => (blanks_regText_chars hb r c hc).2
  have hsep : ∀ {xs ys : List Char}, (∀ c ∈ xs, c ≠ '#') → (∀ c ∈ ys, c ≠ '#') → ∀ c ∈ xs ++ ',' :: ys, c ≠ '#' :=
    fun hx hy => List.forall_mem_append.mpr ⟨hx, List.forall_mem_cons.mpr ⟨by decide, hy⟩⟩
  exact List.forall_mem_append.mpr ⟨fun c hc => (mnemonicText_chars i c hc).1, hsep (hoperand isBlank_space i.rt)
    (hsep (hoperand h₁ i.ra) (hsep (hoperand h₂ i.rb) (hoperand h₃ i.rc)))⟩

/-- Between the commas stand the four operands, behind their blanks. -/
theorem splitCommas_operandsText (i : Instr) :
    splitCommas (operandsText i b₁ b₂ b₃) =
      [[' '] ++ regText i.rt, b₁ ++ regText i.ra, b₂ ++ regText i.rb, b₃ ++ regText i.rc] := by
  have hcomma : ∀ {b : List Char}, (∀ c ∈ b, isBlank c = true) → ∀ r, ∀ c ∈ b ++ regText r, c ≠ ',' :=
    fun hb r c hc => (blanks_regText_chars hb r c hc).1
  rw [operandsText, splitCommas_append _ _ (hcomma isBlank_space i.rt), splitCommas_append _ _ (hcomma h₁ i.ra),
    splitCommas_append _ _ (hcomma h₂ i.rb), splitCommas_one _ (hcomma h₃ i.rc)]

/-- Each part between the commas reads back as its register. -/
theorem parseReg_operandsText (i : Instr) :
    (splitCommas (operandsText i b₁ b₂ b₃)).map (fun part => parseReg (part.dropWhile isBlank)) =
      [some i.rt, some i.ra, some i.rb, some i.rc] := by
  rw [splitCommas_operandsText h₁ h₂ h₃]
  simp only [List.map_cons, List.map_nil, dropBlanks_regText _ _ isBlank_space, dropBlanks_regText _ _ h₁,
    dropBlanks_regText _ _ h₂, dropBlanks_regText _ _ h₃, parseReg_regText]

/-- A source line with blanks where they may stand and, after them, nothing or a comment. -/
theorem parseAssembly_line (i : Instr) {bl tail : List Char} (hbl : ∀ c ∈ bl, isBlank c = true)
    (htail : ∀ c, tail.head? = some c → c = '#') :
    parseAssembly ((mnemonicText i ++ operandsText i b₁ b₂ b₃) ++ bl ++ tail) = some i := by
  have hcomment : uncommented ((mnemonicText i ++ operandsText i b₁ b₂ b₃) ++ bl ++ tail) =
      (mnemonicText i ++ operandsText i b₁ b₂ b₃) ++ bl := by
    refine takeWhile_exact _ _ _ (fun c hc => ?_) fun c hc => by simp [htail c hc]
    rcases List.mem_append.mp hc with h | h
    · simp [instruction_no_comment h₁ h₂ h₃ i c h]
    · simp [(isBlank_chars (hbl c h)).2]
  obtain ⟨htake, hdrop⟩ := span_instruction i b₁ b₂ b₃
  simp only [parseAssembly, hcomment, trim_instruction i b₁ b₂ b₃ hbl, htake, hdrop, parseReg_operandsText h₁ h₂ h₃]
  exact instrNamed_mnemonicText i

end

/-- Settles O10: the plain line has no blanks and no comment. -/
theorem assemblyTextReadsBack : Obligations.AssemblyTextReadsBack := by
  intro i b₁ b₂ b₃ b₄ comment hblank
  have hnil : ∀ c ∈ ([] : List Char), isBlank c = true := by simp
  simp only [List.forall_mem_append] at hblank
  obtain ⟨⟨⟨h₁, h₂⟩, h₃⟩, h₄⟩ := hblank
  constructor
  · have hline := parseAssembly_line hnil hnil hnil i hnil (tail := []) (by simp)
    simpa [assemblyText_eq_operandsText] using hline
  · have hline := parseAssembly_line h₁ h₂ h₃ i h₄ (tail := '#' :: comment) (by simp)
    simpa [operandsText] using hline

end Sys2Proof.Machine
end
